-- ==== Sys2Proof/Word.lean ====
section
/-! DEFINITION. The two element widths of the block (00_scope.md R6: `BYTEW` = 8, `CPW` = 32). -/

namespace Sys2Proof

/-- A byte element's value, 8 bits (20_memory.md R54). -/
abbrev Byte := BitVec 8

/-- A code-point element's value, exactly 32 bits, unsigned (20_memory.md R53, 90_conflicts.md C8). -/
abbrev CodePoint := BitVec 32

end Sys2Proof
end

