-- ==== Sys2Proof/Config.lean ====
section
/-! DEFINITION. The configuration record of 00_scope.md R6, its well-formedness check R7, and the one free
value of the model. The tables' values stand in Machine/Tables.lean. -/

namespace Sys2Proof

/-- The constant tables of 00_scope.md R6. `NCLASS` = 6 is the length of the vectors, `CPW` and `BYTEW` the
widths of `CodePoint` and `Byte`, `MAXCP` is `CEIL[5]`; there is no `MAXLEN`. -/
structure Config where
  /-- `CEIL`: the largest code point of each class. -/
  ceil : Vector CodePoint 6
  /-- `BUDGET`: the significant bits of each class. -/
  budget : Vector Nat 6
  /-- `LEADMARK`: the fixed bits of each lead pattern. -/
  leadMark : Vector Byte 6
  /-- `LEADMASK`: a 1 at each fixed position of each lead pattern. -/
  leadMask : Vector Byte 6
  /-- `LEADBITS`: the payload bits of each lead byte. -/
  leadBits : Vector Nat 6
  contMark : Byte
  contMask : Byte
  contBits : Nat
  deriving DecidableEq, Repr

namespace Config

/-- `MAXCP`, the largest supported code point (R6). -/
def maxCp (cfg : Config) : CodePoint := cfg.ceil[5]

/-- R7 (a): `CEIL` is strictly increasing. -/
def ceilIncreasing (cfg : Config) : Bool :=
  decide (∀ m n : Fin 6, m < n → cfg.ceil[m] < cfg.ceil[n])

/-- R7 (b) for one class: `CEIL[n] = 2^BUDGET[n] - 1`. -/
def ceilMatchesBudget (cfg : Config) (n : Fin 6) : Bool :=
  cfg.ceil[n].toNat == 2 ^ cfg.budget[n] - 1

/-- R7 (c), with `CONTBITS` = 6 as R6 fixes it: budgets, payload widths and masks agree, and every marker lies
under its mask. `LEADMASK[n] = 0xFF - (2^LEADBITS[n] - 1)` stands as a sum, so that no width above 8 passes. -/
def fieldsConsistent (cfg : Config) : Bool :=
  decide (∀ n : Fin 6,
    cfg.budget[n] = cfg.leadBits[n] + 6 * n.val ∧
    cfg.leadMask[n].toNat + 2 ^ cfg.leadBits[n] = 0x100 ∧
    cfg.leadMark[n] &&& cfg.leadMask[n] = cfg.leadMark[n]) &&
  cfg.contBits == 6 && cfg.contMask.toNat + 2 ^ cfg.contBits == 0x100 &&
  cfg.contMark &&& cfg.contMask == cfg.contMark

/-- Two patterns are disjoint when they differ at a position both of them fix. -/
def patternsDisjoint (mark₁ mask₁ mark₂ mask₂ : Byte) : Bool :=
  ((mark₁ ^^^ mark₂) &&& mask₁ &&& mask₂) != 0

/-- R7 (d): the six lead patterns and the continuation pattern are pairwise disjoint. -/
def allPatternsDisjoint (cfg : Config) : Bool :=
  decide ((∀ m n : Fin 6, m < n →
      patternsDisjoint cfg.leadMark[m] cfg.leadMask[m] cfg.leadMark[n] cfg.leadMask[n] = true) ∧
    ∀ n : Fin 6,
      patternsDisjoint cfg.leadMark[n] cfg.leadMask[n] cfg.contMark cfg.contMask = true)

/-- The check of R7. A configuration that fails it is refused (93_implementation_defined.md U4), but for the
one exception of U2, `admissible`. -/
def wf (cfg : Config) : Bool :=
  cfg.ceilIncreasing && decide (∀ n : Fin 6, cfg.ceilMatchesBudget n = true) &&
    cfg.fieldsConsistent && cfg.allPatternsDisjoint

/-- R7 with the one exception of 93_implementation_defined.md U2: the entry `CEIL[3]` may be the literal the
source prints, `0x1FFFF`. -/
def admissible (cfg : Config) : Bool :=
  cfg.ceilIncreasing &&
    decide (∀ n : Fin 6, cfg.ceilMatchesBudget n = true ∨ (n = 3 ∧ cfg.ceil[n] = 0x1FFFF)) &&
    cfg.fieldsConsistent && cfg.allPatternsDisjoint

/-- FREE VALUE (log entry 1). How many more steps a unit takes, while both could step, before the other one
has its turn: 20_memory.md R67 (b) leaves the interleaving open, R72 asks only that each unit steps
eventually. The argument counts the bursts drawn so far. -/
opaque burst : Nat → Nat

end Config

end Sys2Proof
end

