-- ==== Sys2Proof/Machine/Tables.lean ====
section
/-! DEFINITION. The values of the constant tables (00_scope.md R6): hardwired, never written, the same during
and after reset (70_reset_and_hazards.md R264); and the match of a byte with a pattern. -/

namespace Sys2Proof.Machine

/-- The tables of this hardware (R6). `CEIL[3]` is `0x1FFFFF`, as 90_conflicts.md C1 resolves it
(log entry 5). -/
def tables : Config where
  ceil := #v[0x7F, 0x7FF, 0xFFFF, 0x1FFFFF, 0x3FFFFFF, 0x7FFFFFFF]
  budget := #v[7, 11, 16, 21, 26, 31]
  leadMark := #v[0x00, 0xC0, 0xE0, 0xF0, 0xF8, 0xFC]
  leadMask := #v[0x80, 0xE0, 0xF0, 0xF8, 0xFC, 0xFE]
  leadBits := #v[7, 5, 4, 3, 2, 1]
  contMark := 0x80
  contMask := 0xC0
  contBits := 6

/-- The second instantiation the spec gives vectors for (93_implementation_defined.md U2): `CEIL[3]` as the
source prints it. No step uses it. -/
def printedTables : Config :=
  { tables with ceil := #v[0x7F, 0x7FF, 0xFFFF, 0x1FFFF, 0x3FFFFFF, 0x7FFFFFFF] }

/-- The byte has the fixed bits `mark` at the positions of `mask` (30_encoding.md R82). -/
def hasPattern (b mark mask : Byte) : Bool := b &&& mask == mark

/-- `0xxxxxxx`, the row `DEC.BADCONT.0` (41_decoder.md R160). -/
def pattern0 (b : Byte) : Bool := hasPattern b 0x00 0x80

/-- `11xxxxxx`, the row `DEC.BADCONT.11` (41_decoder.md R160). -/
def pattern11 (b : Byte) : Bool := hasPattern b 0xC0 0xC0

/-- `1111111x`, the row `DEC.BADLEAD.FEFF` (41_decoder.md R157). -/
def patternFeff (b : Byte) : Bool := hasPattern b 0xFE 0xFE

end Sys2Proof.Machine
end

