-- ==== Sys2Proof/Syntax.lean ====
section
/-! DEFINITION. The units, what stands on an input stream, the status values a case is selected by, and
`Instr`: one constructor per row of spec/opcode_table.json (30_encoding.md R94). -/

namespace Sys2Proof

/-- The two agents of 10_state.md R21. -/
inductive Agent where
  | enc
  | dec
  deriving DecidableEq, Repr

/-- The unit that is not this one. -/
def Agent.other : Agent → Agent
  | .enc => .dec
  | .dec => .enc

/-- `ENC.st` (10_state.md R22). -/
inductive EncSt where
  | run
  | failed
  deriving DecidableEq, Repr

/-- `DEC.st` (10_state.md R23). -/
inductive DecSt where
  | awaitLead
  | awaitCont
  | failed
  deriving DecidableEq, Repr

/-- An element of an input stream whose data elements carry an `α`: `CP(v)` on `ENC.in`, `BYTE(b)` on
`DEC.in` (20_memory.md R53, R54), or `END` (R55). An element of the wrong kind cannot be written (R57). -/
inductive InElem (α : Type) where
  | data (a : α)
  | endMark
  deriving DecidableEq, Repr

/-- An error record, with the five shapes of 10_state.md R30. -/
inductive ErrorRecord where
  | none
  | codePointTooLarge (value max : CodePoint)
  | invalidLeadByte (b : Byte)
  | invalidContinuationByte (b : Byte)
  | unexpectedEnd
  deriving DecidableEq, Repr

/-- The cases of the two units' steps and the six symbol formats. A `seq` carries the payload fields of
30_encoding.md R81, lead payload first; the other cases carry the whole element they consume, as the rules'
"Operands" lines do. -/
inductive Instr where
  | seq1 (a : BitVec 7)
  | seq2 (a : BitVec 5) (b : BitVec 6)
  | seq3 (a : BitVec 4) (b c : BitVec 6)
  | seq4 (a : BitVec 3) (b c d : BitVec 6)
  | seq5 (a : BitVec 2) (b c d e : BitVec 6)
  | seq6 (a : BitVec 1) (b c d e f : BitVec 6)
  | decLead1 (b : Byte)
  | decLead2 (b : Byte)
  | decLead3 (b : Byte)
  | decLead4 (b : Byte)
  | decLead5 (b : Byte)
  | decLead6 (b : Byte)
  | decBadlead10 (b : Byte)
  | decBadleadFeff (b : Byte)
  | decCont (b : Byte)
  | decBadcont0 (b : Byte)
  | decBadcont11 (b : Byte)
  | enc1 (v : CodePoint)
  | enc2 (v : CodePoint)
  | enc3 (v : CodePoint)
  | enc4 (v : CodePoint)
  | enc5 (v : CodePoint)
  | enc6 (v : CodePoint)
  | encToolarge (v : CodePoint)
  | encDrain (v : CodePoint)
  | encEnd
  | decDrain (b : Byte)
  | decEndOk
  | decEndTrunc
  | decEndFail
  deriving DecidableEq, Repr

end Sys2Proof
end

