-- ==== Sys2Proof/WellFormed.lean ====
section
/-! DEFINITION. Which operands an instruction may carry: the `match`/`mask` of the byte rows and the `range` of
the code-point rows of spec/opcode_table.json (30_encoding.md R82, R83, R85). -/

namespace Sys2Proof

/-- The operands are those of the instruction's row. A `seq` has no check: its fields have exactly the widths
of 30_encoding.md R81. The bounds of the `enc` rows are the table `CEIL` (R85). -/
def Instr.wf : Instr → Bool
  | .seq1 _ | .seq2 _ _ | .seq3 _ _ _ | .seq4 _ _ _ _ | .seq5 _ _ _ _ _ | .seq6 _ _ _ _ _ _ => true
  | .decLead1 b => Machine.hasPattern b 0x00 0x80
  | .decLead2 b => Machine.hasPattern b 0xC0 0xE0
  | .decLead3 b => Machine.hasPattern b 0xE0 0xF0
  | .decLead4 b => Machine.hasPattern b 0xF0 0xF8
  | .decLead5 b => Machine.hasPattern b 0xF8 0xFC
  | .decLead6 b => Machine.hasPattern b 0xFC 0xFE
  | .decBadlead10 b => Machine.hasPattern b 0x80 0xC0
  | .decBadleadFeff b => Machine.hasPattern b 0xFE 0xFE
  | .decCont b => Machine.hasPattern b 0x80 0xC0
  | .decBadcont0 b => Machine.hasPattern b 0x00 0x80
  | .decBadcont11 b => Machine.hasPattern b 0xC0 0xC0
  | .enc1 v => v ≤ Machine.tables.ceil[0]
  | .enc2 v => Machine.tables.ceil[0] < v && v ≤ Machine.tables.ceil[1]
  | .enc3 v => Machine.tables.ceil[1] < v && v ≤ Machine.tables.ceil[2]
  | .enc4 v => Machine.tables.ceil[2] < v && v ≤ Machine.tables.ceil[3]
  | .enc5 v => Machine.tables.ceil[3] < v && v ≤ Machine.tables.ceil[4]
  | .enc6 v => Machine.tables.ceil[4] < v && v ≤ Machine.tables.ceil[5]
  | .encToolarge v => Machine.tables.ceil[5] < v
  | .encDrain _ | .encEnd | .decDrain _ | .decEndOk | .decEndTrunc | .decEndFail => true

end Sys2Proof
end

