-- ==== Sys2Proof/Decode.lean ====
section
/-! DEFINITION. Decoding: which case an element is (40_encoder.md R120, R121; 41_decoder.md R150, R159), which
symbol a byte sequence begins with (30_encoding.md R81 to R90), and the encoder of instructions. -/

namespace Sys2Proof

/-- `class_of(v)` (40_encoder.md R121): the first class, in increasing order, whose ceiling is at least `v`;
`none` is `TOOLARGE`. -/
def classOf (cfg : Config) (v : CodePoint) : Option (Fin 6) :=
  if v ≤ cfg.ceil[0] then some 0
  else if v ≤ cfg.ceil[1] then some 1
  else if v ≤ cfg.ceil[2] then some 2
  else if v ≤ cfg.ceil[3] then some 3
  else if v ≤ cfg.ceil[4] then some 4
  else if v ≤ cfg.ceil[5] then some 5
  else none

/-- The byte matches `LEADPAT[n]` (30_encoding.md R82). -/
def isLead (cfg : Config) (n : Fin 6) (b : Byte) : Bool :=
  Machine.hasPattern b cfg.leadMark[n] cfg.leadMask[n]

/-- The byte matches `CONTPAT` (30_encoding.md R83). -/
def isCont (cfg : Config) (b : Byte) : Bool :=
  Machine.hasPattern b cfg.contMark cfg.contMask

/-- `lead_class(b)` (41_decoder.md R159): the first class whose marker the byte has; `none` is `NOTLEAD`. -/
def leadClass (cfg : Config) (b : Byte) : Option (Fin 6) :=
  if isLead cfg 0 b then some 0
  else if isLead cfg 1 b then some 1
  else if isLead cfg 2 b then some 2
  else if isLead cfg 3 b then some 3
  else if isLead cfg 4 b then some 4
  else if isLead cfg 5 b then some 5
  else none

/-- The dispatch table of the encoder's step (40_encoder.md R120). -/
def decodeEnc (cfg : Config) : EncSt → InElem CodePoint → Instr
  | _, .endMark => .encEnd
  | .failed, .data v => .encDrain v
  | .run, .data v =>
    match classOf cfg v with
    | some 0 => .enc1 v
    | some 1 => .enc2 v
    | some 2 => .enc3 v
    | some 3 => .enc4 v
    | some 4 => .enc5 v
    | some 5 => .enc6 v
    | none => .encToolarge v

/-- The dispatch table of the decoder's step (41_decoder.md R150); each of the two error cases has two rows
(30_encoding.md R94 (b)). -/
def decodeDec (cfg : Config) : DecSt → InElem Byte → Instr
  | .awaitLead, .endMark => .decEndOk
  | .awaitCont, .endMark => .decEndTrunc
  | .failed, .endMark => .decEndFail
  | .failed, .data b => .decDrain b
  | .awaitLead, .data b =>
    match leadClass cfg b with
    | some 0 => .decLead1 b
    | some 1 => .decLead2 b
    | some 2 => .decLead3 b
    | some 3 => .decLead4 b
    | some 4 => .decLead5 b
    | some 5 => .decLead6 b
    | none => if isCont cfg b then .decBadlead10 b else .decBadleadFeff b
  | .awaitCont, .data b =>
    if isCont cfg b then .decCont b
    else if Machine.pattern0 b then .decBadcont0 b else .decBadcont11 b

/-- One continuation byte of a symbol: its six payload bits and the bytes after it, or the error of
30_encoding.md R89, R90. -/
def takeCont (cfg : Config) : List Byte → Except ErrorRecord (BitVec 6 × List Byte)
  | [] => .error .unexpectedEnd
  | c :: rest => if isCont cfg c then .ok (c.setWidth 6, rest) else .error (.invalidContinuationByte c)

/-- The symbol a byte sequence begins with and the bytes after it, by the formats of 30_encoding.md R81; the
rejections are named by the error records of R88, R89, R90. No bytes at all is the truncation of R90 (log entry 22). -/
def decodeSymbol (cfg : Config) : List Byte → Except ErrorRecord (Instr × List Byte)
  | [] => .error .unexpectedEnd
  | l :: r0 =>
    match leadClass cfg l with
    | none => .error (.invalidLeadByte l)
    | some 0 => .ok (.seq1 (l.setWidth 7), r0)
    | some 1 => do
      let (b, r1) ← takeCont cfg r0
      return (.seq2 (l.setWidth 5) b, r1)
    | some 2 => do
      let (b, r1) ← takeCont cfg r0
      let (c, r2) ← takeCont cfg r1
      return (.seq3 (l.setWidth 4) b c, r2)
    | some 3 => do
      let (b, r1) ← takeCont cfg r0
      let (c, r2) ← takeCont cfg r1
      let (d, r3) ← takeCont cfg r2
      return (.seq4 (l.setWidth 3) b c d, r3)
    | some 4 => do
      let (b, r1) ← takeCont cfg r0
      let (c, r2) ← takeCont cfg r1
      let (d, r3) ← takeCont cfg r2
      let (e, r4) ← takeCont cfg r3
      return (.seq5 (l.setWidth 2) b c d e, r4)
    | some 5 => do
      let (b, r1) ← takeCont cfg r0
      let (c, r2) ← takeCont cfg r1
      let (d, r3) ← takeCont cfg r2
      let (e, r4) ← takeCont cfg r3
      let (f, r5) ← takeCont cfg r4
      return (.seq6 (l.setWidth 1) b c d e f, r5)

/-- Everything the decoder of instructions can be given: an element at the head of a unit's input with the
status the unit has, or the bytes of one symbol (30_encoding.md R94: rows (b) to (d), and rows (a)). -/
inductive Issue where
  | enc (st : EncSt) (e : InElem CodePoint)
  | dec (st : DecSt) (e : InElem Byte)
  | symbol (bytes : List Byte)
  deriving DecidableEq, Repr

/-- Why the bytes of an issue are no symbol. -/
inductive Reject where
  /-- The bytes are malformed: one of the three decode errors. -/
  | malformed (e : ErrorRecord)
  /-- A whole symbol, then more bytes. -/
  | trailing (rest : List Byte)
  deriving DecidableEq, Repr

/-- The instruction an issue is; only a byte sequence can be rejected (the dispatch tables are total). -/
def decode (cfg : Config) : Issue → Except Reject Instr
  | .enc st e => .ok (decodeEnc cfg st e)
  | .dec st e => .ok (decodeDec cfg st e)
  | .symbol bytes =>
    match decodeSymbol cfg bytes with
    | .error e => .error (.malformed e)
    | .ok (i, []) => .ok i
    | .ok (_, rest) => .error (.trailing rest)

/-- A continuation byte: the marker `10` above six payload bits (30_encoding.md R83). -/
def contByte (g : BitVec 6) : Byte := 0b10#2 ++ g

/-- The bytes of a symbol, lead byte first, as 30_encoding.md R81 writes them; no bytes for the other
instructions. -/
def symbolBytes : Instr → List Byte
  | .seq1 a => [0b0#1 ++ a]
  | .seq2 a b => [0b110#3 ++ a, contByte b]
  | .seq3 a b c => [0b1110#4 ++ a, contByte b, contByte c]
  | .seq4 a b c d => [0b11110#5 ++ a, contByte b, contByte c, contByte d]
  | .seq5 a b c d e => [0b111110#6 ++ a, contByte b, contByte c, contByte d, contByte e]
  | .seq6 a b c d e f => [0b1111110#7 ++ a, contByte b, contByte c, contByte d, contByte e, contByte f]
  | _ => []

/-- The code point of a symbol: its fields, most significant first, zero-extended (30_encoding.md R81, R84);
0 for the other instructions. -/
def symbolCodePoint : Instr → CodePoint
  | .seq1 a => a.setWidth 32
  | .seq2 a b => (a ++ b).setWidth 32
  | .seq3 a b c => (a ++ b ++ c).setWidth 32
  | .seq4 a b c d => (a ++ b ++ c ++ d).setWidth 32
  | .seq5 a b c d e => (a ++ b ++ c ++ d ++ e).setWidth 32
  | .seq6 a b c d e f => (a ++ b ++ c ++ d ++ e ++ f).setWidth 32
  | _ => 0

/-- The issue that is an instruction: the bytes of its format (30_encoding.md R81), or the element it consumes
in the status that selects it (40_encoder.md R120, 41_decoder.md R150). `ENC.END` is selected in both statuses
of `ENC`; `RUN` is written here. -/
def encode : Instr → Issue
  | .seq1 a => .symbol (symbolBytes (.seq1 a))
  | .seq2 a b => .symbol (symbolBytes (.seq2 a b))
  | .seq3 a b c => .symbol (symbolBytes (.seq3 a b c))
  | .seq4 a b c d => .symbol (symbolBytes (.seq4 a b c d))
  | .seq5 a b c d e => .symbol (symbolBytes (.seq5 a b c d e))
  | .seq6 a b c d e f => .symbol (symbolBytes (.seq6 a b c d e f))
  | .decLead1 b => .dec .awaitLead (.data b)
  | .decLead2 b => .dec .awaitLead (.data b)
  | .decLead3 b => .dec .awaitLead (.data b)
  | .decLead4 b => .dec .awaitLead (.data b)
  | .decLead5 b => .dec .awaitLead (.data b)
  | .decLead6 b => .dec .awaitLead (.data b)
  | .decBadlead10 b => .dec .awaitLead (.data b)
  | .decBadleadFeff b => .dec .awaitLead (.data b)
  | .decCont b => .dec .awaitCont (.data b)
  | .decBadcont0 b => .dec .awaitCont (.data b)
  | .decBadcont11 b => .dec .awaitCont (.data b)
  | .enc1 v => .enc .run (.data v)
  | .enc2 v => .enc .run (.data v)
  | .enc3 v => .enc .run (.data v)
  | .enc4 v => .enc .run (.data v)
  | .enc5 v => .enc .run (.data v)
  | .enc6 v => .enc .run (.data v)
  | .encToolarge v => .enc .run (.data v)
  | .encDrain v => .enc .failed (.data v)
  | .encEnd => .enc .run .endMark
  | .decDrain b => .dec .failed (.data b)
  | .decEndOk => .dec .awaitLead .endMark
  | .decEndTrunc => .dec .awaitCont .endMark
  | .decEndFail => .dec .failed .endMark

/-- How many bits the encoding of an issue has: 8 for each byte, 32 for a code point, none for `END`. -/
def Issue.width : Issue → Nat
  | .enc _ (.data _) => 32
  | .enc _ .endMark => 0
  | .dec _ (.data _) => 8
  | .dec _ .endMark => 0
  | .symbol bytes => 8 * bytes.length

/-- The `k` bytes of a word of spec/opcode_table.json: the table writes a symbol lead byte first and most
significant bit first, so the first byte is the most significant one (log entry 8). -/
def tableBytes : Nat → Nat → List Byte
  | 0, _ => []
  | k + 1, w => BitVec.ofNat 8 (w >>> (8 * k)) :: tableBytes k w

/-- The issue a word of the table is, in the status both units have after reset (log entry 8): 8 bits are a
byte for `DEC`; 32 bits are the four bytes of a `SEQ4` if they have its pattern, else a code point for `ENC`;
16, 24, 40 and 48 bits are the bytes of a symbol. No other width stands in the table. -/
def issueOfTableWord (nbits w : Nat) : Option Issue :=
  if nbits = 8 then some (.dec .awaitLead (.data (BitVec.ofNat 8 w)))
  else if nbits = 16 then some (.symbol (tableBytes 2 w))
  else if nbits = 24 then some (.symbol (tableBytes 3 w))
  else if nbits = 32 then
    if w &&& 0xF8C0C0C0 = 0xF0808080 then some (.symbol (tableBytes 4 w))
    else some (.enc .run (.data (BitVec.ofNat 32 w)))
  else if nbits = 40 then some (.symbol (tableBytes 5 w))
  else if nbits = 48 then some (.symbol (tableBytes 6 w))
  else none

/-- The instruction the decoder reads from a word of the table; `none` where it refuses. -/
def decodeTableWord (nbits w : Nat) : Option Instr :=
  match issueOfTableWord nbits w with
  | none => none
  | some x =>
    match decode Machine.tables x with
    | .ok i => some i
    | .error _ => none

end Sys2Proof
end

