-- ==== Sys2Proof/Machine/Operands.lean ====
section
/-! DEFINITION. The bits of an operand: splitting a code point into the bytes of its symbol (40_encoder.md
R131, R132) and assembling one from payloads (41_decoder.md R151 to R158, 30_encoding.md R84). -/

namespace Sys2Proof.Machine

/-- The lead byte of `v` as a symbol of class `n`: `(v >> (6*n)) | LEADMARK[n]` (40_encoder.md R132, step 2). -/
def leadByteOf (cfg : Config) (n : Fin 6) (v : CodePoint) : Byte :=
  (v >>> (cfg.contBits * n.val)).setWidth 8 ||| cfg.leadMark[n]

/-- Continuation byte `i` of `v` as a symbol of class `n`: `((v >> ((n-i-1)*6)) & 0x3F) | 0x80`
(40_encoder.md R132, step 3). -/
def contByteOf (cfg : Config) (n : Fin 6) (v : CodePoint) (i : Nat) : Byte :=
  ((v >>> ((n.val - i - 1) * cfg.contBits)).setWidth 8 &&& ~~~cfg.contMask) ||| cfg.contMark

/-- `enc_sym(v)` for a code point of class `n`: one lead byte and `n` continuation bytes, most significant
group first (40_encoder.md R132, 20_memory.md R61). -/
def encSym (cfg : Config) (n : Fin 6) (v : CodePoint) : List Byte :=
  leadByteOf cfg n v :: (List.range n.val).map (contByteOf cfg n v)

/-- The payload of a lead byte of class `n`, zero-extended (41_decoder.md R151 to R156). -/
def leadPayload (cfg : Config) (n : Fin 6) (b : Byte) : CodePoint :=
  (b &&& ~~~cfg.leadMask[n]).setWidth 32

/-- The payload of a continuation byte, zero-extended (30_encoding.md R83). -/
def contPayload (cfg : Config) (b : Byte) : CodePoint :=
  (b &&& ~~~cfg.contMask).setWidth 32

/-- One more group of six bits under the bits assembled so far (41_decoder.md R158). -/
def accumulate (cfg : Config) (acc : CodePoint) (b : Byte) : CodePoint :=
  (acc <<< cfg.contBits) ||| contPayload cfg b

end Sys2Proof.Machine
end

