-- ==== Sys2Proof/Machine/State.lean ====
section
/-! DEFINITION. The state of the block: the fields of its two units (10_state.md R22, R23) and the four
streams (20_memory.md R52), the state after reset (10_state.md R33), and the reasons a step can stop. -/

namespace Sys2Proof.Machine

/-- What `DONE` carries: `OK`, or `ERR(e)` with an error record (20_memory.md R56). -/
inductive DoneResult where
  | ok
  | err (e : ErrorRecord)
  deriving DecidableEq, Repr

/-- An element of an output stream: a data element, or the `DONE(r)` that ends a transaction's output
(20_memory.md R53, R54, R56). -/
inductive OutElem (α : Type) where
  | data (a : α)
  | done (r : DoneResult)
  deriving DecidableEq, Repr

/-- The fields of the encoder (10_state.md R22). -/
structure EncUnit where
  st : EncSt
  err : ErrorRecord
  deriving DecidableEq, Repr

/-- The fields of the decoder (10_state.md R23). `rem` is 3 bits wide in the spec, with the legal values 0 to 5
that its type has (log entry 17). -/
structure DecUnit where
  st : DecSt
  rem : Fin 6
  acc : CodePoint
  err : ErrorRecord
  deriving DecidableEq, Repr

/-- The model's own choice of who steps while both units could (log entries 1 and 2): the unit whose turn it
is, how many more steps it takes after this one, and how many free burst lengths were drawn. -/
structure Sched where
  turn : Agent
  quota : Nat
  draw : Nat
  deriving DecidableEq, Repr

structure State where
  enc : EncUnit
  dec : DecUnit
  encIn : List (InElem CodePoint)
  encOut : List (OutElem Byte)
  decIn : List (InElem Byte)
  decOut : List (OutElem CodePoint)
  sched : Sched
  deriving DecidableEq, Repr

/-- No step faults: no condition of this block is one the source calls undefined (60_exceptions.md R251). -/
inductive Fault where
  deriving DecidableEq, Repr

/-- Why the model gives an instruction no meaning. -/
inductive Refusal where
  /-- Raised by `exec` for an instruction that has no meaning yet; safe. -/
  | notModelled (mnemonic : String)
  /-- Raised by the meaning of a case that the dispatch tables of 40_encoder.md R120 and 41_decoder.md R150 do
  not select: the unit's status or the operand is another case's. No step raises it; safe (log entry 4). -/
  | caseNotSelected
  deriving DecidableEq, Repr

/-- The encoder's fields after reset (10_state.md R33). -/
def EncUnit.reset : EncUnit := { st := .run, err := .none }

/-- The decoder's fields after reset (10_state.md R33). -/
def DecUnit.reset : DecUnit := { st := .awaitLead, rem := 0, acc := 0, err := .none }

/-- DESIGN CHOICE (log entry 2): the value of the model's own field after reset. -/
def Sched.reset : Sched := { turn := .enc, quota := 0, draw := 0 }

/-- The machine right after reset: every field at the value of 10_state.md R33, the four streams empty
(70_reset_and_hazards.md R260, R261). -/
def State.reset : State where
  enc := EncUnit.reset
  dec := DecUnit.reset
  encIn := []
  encOut := []
  decIn := []
  decOut := []
  sched := Sched.reset

end Sys2Proof.Machine
end

