-- ==== Sys2Proof/Machine/Ops.lean ====
section
/-! DEFINITION. The operations every case is made of: appending output (20_memory.md R52, R64), raising an error
and ending a transaction (60_exceptions.md R232, 10_state.md R34), the two ways a symbol advances, and what the
host may do (20_memory.md R57, R58; 70_reset_and_hazards.md R260). -/

namespace Sys2Proof.Machine

/-- `ENC.out.put` of each element in order. -/
def putEnc (es : List (OutElem Byte)) (s : State) : State :=
  { s with encOut := s.encOut ++ es }

/-- `DEC.out.put` of each element in order. -/
def putDec (es : List (OutElem CodePoint)) (s : State) : State :=
  { s with decOut := s.decOut ++ es }

/-- Raising an error on a data element (60_exceptions.md R232): the record goes to `err`, `st` becomes `FAILED`,
the decoder drops its partly assembled symbol, nothing is appended. -/
def raise (u : Agent) (e : ErrorRecord) (s : State) : State :=
  match u with
  | .enc => { s with enc := { st := .failed, err := e } }
  | .dec => { s with dec := { st := .failed, rem := 0, acc := 0, err := e } }

/-- Ending a transaction: `DONE(r)` is appended and every field of the unit returns to its reset value
(10_state.md R34, 60_exceptions.md R236). -/
def finish (u : Agent) (r : DoneResult) (s : State) : State :=
  match u with
  | .enc => { s with enc := EncUnit.reset, encOut := s.encOut ++ [.done r] }
  | .dec => { s with dec := DecUnit.reset, decOut := s.decOut ++ [.done r] }

/-- A case runs only where the dispatch table selects it (40_encoder.md R120, 41_decoder.md R150; log entry 4). -/
def selected (c : Bool) (s' : State) : Host.Outcome State Fault Refusal :=
  if c then .next s' else .refused .caseNotSelected

/-- A lead byte of class `n` (41_decoder.md R151 to R156): class 0 is a whole symbol; another class loads the
accumulator and the count. -/
def beginSymbol (n : Fin 6) (b : Byte) (s : State) : State :=
  if n = 0 then putDec [.data (leadPayload tables 0 b)] s
  else { s with dec := { s.dec with st := .awaitCont, rem := n, acc := leadPayload tables n b } }

/-- The count of continuation bytes after one more was consumed (10_state.md R29). -/
def oneFewer (r : Fin 6) : Fin 6 := ⟨r.val - 1, by omega⟩

/-- A continuation byte (41_decoder.md R158): one more group; at the last one the code point is appended and the
unit awaits a lead byte again. -/
def continueSymbol (b : Byte) (s : State) : State :=
  if 1 < s.dec.rem.val then
    { s with dec := { s.dec with acc := accumulate tables s.dec.acc b, rem := oneFewer s.dec.rem } }
  else
    putDec [.data (accumulate tables s.dec.acc b)]
      { s with dec := { s.dec with st := .awaitLead, rem := 0, acc := 0 } }

/-- What consuming `BYTE(b)` does to the decoder in any status (41_decoder.md R170, the rows of a byte). -/
def consumeByte (b : Byte) (s : State) : State :=
  match s.dec.st with
  | .awaitLead =>
    match leadClass tables b with
    | some n => beginSymbol n b s
    | none => raise .dec (.invalidLeadByte b) s
  | .awaitCont =>
    if isCont tables b then continueSymbol b s else raise .dec (.invalidContinuationByte b) s
  | .failed => s

/-- The bytes of a symbol consumed one after another, first byte first. -/
def consumeBytes (bytes : List Byte) (s : State) : State :=
  match bytes with
  | [] => s
  | b :: rest => consumeBytes rest (consumeByte b s)

/-- The host appends to `ENC.in` (20_memory.md R57). -/
def hostPutEnc (e : InElem CodePoint) (s : State) : State :=
  { s with encIn := s.encIn ++ [e] }

/-- The host appends to `DEC.in` (20_memory.md R57). -/
def hostPutDec (e : InElem Byte) (s : State) : State :=
  { s with decIn := s.decIn ++ [e] }

/-- The host removes the front element of `ENC.out`, where there is one (20_memory.md R58). -/
def hostTakeEnc (s : State) : Option (OutElem Byte × State) :=
  match s.encOut with
  | [] => none
  | e :: rest => some (e, { s with encOut := rest })

/-- The host removes the front element of `DEC.out`, where there is one (20_memory.md R58). -/
def hostTakeDec (s : State) : Option (OutElem CodePoint × State) :=
  match s.decOut with
  | [] => none
  | e :: rest => some (e, { s with decOut := rest })

/-- The reset event (70_reset_and_hazards.md R260 to R262): whatever was in progress is abandoned. -/
def hostReset (_ : State) : State := State.reset

end Sys2Proof.Machine
end

