-- ==== Sys2Proof/Machine/Decoder.lean ====
section
/-! DEFINITION. The cases of the decoder's step (41_decoder.md R151 to R164). -/

namespace Sys2Proof.Machine

/-- A lead byte of class `n` in `AWAIT_LEAD` (R151 to R156). -/
def leadOfClass (n : Fin 6) (b : Byte) (s : State) : Host.Outcome State Fault Refusal :=
  selected (s.dec.st == .awaitLead && leadClass tables b == some n) (beginSymbol n b s)

/-- `DEC.LEAD1` (41_decoder.md R151). -/
def execDecLead1 (b : Byte) (s : State) : Host.Outcome State Fault Refusal := leadOfClass 0 b s

/-- `DEC.LEAD2` (41_decoder.md R152). -/
def execDecLead2 (b : Byte) (s : State) : Host.Outcome State Fault Refusal := leadOfClass 1 b s

/-- `DEC.LEAD3` (41_decoder.md R153). -/
def execDecLead3 (b : Byte) (s : State) : Host.Outcome State Fault Refusal := leadOfClass 2 b s

/-- `DEC.LEAD4` (41_decoder.md R154). -/
def execDecLead4 (b : Byte) (s : State) : Host.Outcome State Fault Refusal := leadOfClass 3 b s

/-- `DEC.LEAD5` (41_decoder.md R155). -/
def execDecLead5 (b : Byte) (s : State) : Host.Outcome State Fault Refusal := leadOfClass 4 b s

/-- `DEC.LEAD6` (41_decoder.md R156). -/
def execDecLead6 (b : Byte) (s : State) : Host.Outcome State Fault Refusal := leadOfClass 5 b s

/-- A byte in lead position that is no lead byte; `row` says which of the two patterns of the case it has
(41_decoder.md R157). -/
def badLead (row : Bool) (b : Byte) (s : State) : Host.Outcome State Fault Refusal :=
  selected (s.dec.st == .awaitLead && row) (raise .dec (.invalidLeadByte b) s)

/-- `DEC.BADLEAD.10` (41_decoder.md R157): the continuation pattern. -/
def execDecBadlead10 (b : Byte) (s : State) : Host.Outcome State Fault Refusal :=
  badLead (isCont tables b) b s

/-- `DEC.BADLEAD.FEFF` (41_decoder.md R157): `FE` and `FF`. -/
def execDecBadleadFeff (b : Byte) (s : State) : Host.Outcome State Fault Refusal :=
  badLead (patternFeff b) b s

/-- `DEC.CONT` (41_decoder.md R158). -/
def execDecCont (b : Byte) (s : State) : Host.Outcome State Fault Refusal :=
  selected (s.dec.st == .awaitCont && isCont tables b) (continueSymbol b s)

/-- A byte in continuation position that is no continuation byte; `row` says which of the two patterns of the
case it has (41_decoder.md R160). -/
def badCont (row : Bool) (b : Byte) (s : State) : Host.Outcome State Fault Refusal :=
  selected (s.dec.st == .awaitCont && row) (raise .dec (.invalidContinuationByte b) s)

/-- `DEC.BADCONT.0` (41_decoder.md R160): `00` to `7F`. -/
def execDecBadcont0 (b : Byte) (s : State) : Host.Outcome State Fault Refusal :=
  badCont (pattern0 b) b s

/-- `DEC.BADCONT.11` (41_decoder.md R160): `C0` to `FF`. -/
def execDecBadcont11 (b : Byte) (s : State) : Host.Outcome State Fault Refusal :=
  badCont (pattern11 b) b s

/-- `DEC.DRAIN` (41_decoder.md R163): the element is discarded, whatever it is. -/
def execDecDrain (_ : Byte) (s : State) : Host.Outcome State Fault Refusal :=
  selected (s.dec.st == .failed) s

/-- `DEC.END.OK` (41_decoder.md R161). -/
def execDecEndOk (s : State) : Host.Outcome State Fault Refusal :=
  selected (s.dec.st == .awaitLead) (finish .dec .ok s)

/-- `DEC.END.TRUNC` (41_decoder.md R162): `UnexpectedEnd` leaves the unit in the step that raises it. -/
def execDecEndTrunc (s : State) : Host.Outcome State Fault Refusal :=
  selected (s.dec.st == .awaitCont) (finish .dec (.err .unexpectedEnd) s)

/-- `DEC.END.FAIL` (41_decoder.md R164): the recorded error is delivered. -/
def execDecEndFail (s : State) : Host.Outcome State Fault Refusal :=
  selected (s.dec.st == .failed) (finish .dec (.err s.dec.err) s)

end Sys2Proof.Machine
end

