-- ==== Sys2Proof/Machine/Flags.lean ====
section
/-! DEFINITION. The block has no arithmetic flags; its only status is the pair (`st`, `err`) of each unit
(10_state.md R25). Here stand the numbers the spec gives the status values and the error kinds, and the result a
status gives at `END`. -/

namespace Sys2Proof.Machine

/-- The 1-bit value of `ENC.st` (10_state.md R22). -/
def encStCode : EncSt → BitVec 1
  | .run => 0
  | .failed => 1

/-- The 2-bit value of `DEC.st` (10_state.md R23); 3 never occurs. -/
def decStCode : DecSt → BitVec 2
  | .awaitLead => 0
  | .awaitCont => 1
  | .failed => 2

/-- The number of an error kind (60_exceptions.md R225); 5 to 7 do not occur. -/
def errorCode : ErrorRecord → BitVec 3
  | .none => 0
  | .codePointTooLarge _ _ => 1
  | .invalidLeadByte _ => 2
  | .invalidContinuationByte _ => 3
  | .unexpectedEnd => 4

/-- The result `ENC.END` delivers: `OK` in `RUN`, else the recorded error (40_encoder.md R129). -/
def encResult (u : EncUnit) : DoneResult :=
  match u.st with
  | .run => .ok
  | .failed => .err u.err

end Sys2Proof.Machine
end

