-- ==== Sys2Proof/Machine/Encoder.lean ====
section
/-! DEFINITION. The cases of the encoder's step (40_encoder.md R122 to R130). -/

namespace Sys2Proof.Machine

/-- A code point of class `n` in `RUN`: the bytes of its symbol are appended, no field changes (R122 to R127). -/
def encodeClass (n : Fin 6) (v : CodePoint) (s : State) : Host.Outcome State Fault Refusal :=
  selected (s.enc.st == .run && classOf tables v == some n)
    (putEnc ((encSym tables n v).map .data) s)

/-- `ENC1` (40_encoder.md R122). -/
def execEnc1 (v : CodePoint) (s : State) : Host.Outcome State Fault Refusal := encodeClass 0 v s

/-- `ENC2` (40_encoder.md R123). -/
def execEnc2 (v : CodePoint) (s : State) : Host.Outcome State Fault Refusal := encodeClass 1 v s

/-- `ENC3` (40_encoder.md R124). -/
def execEnc3 (v : CodePoint) (s : State) : Host.Outcome State Fault Refusal := encodeClass 2 v s

/-- `ENC4` (40_encoder.md R125). -/
def execEnc4 (v : CodePoint) (s : State) : Host.Outcome State Fault Refusal := encodeClass 3 v s

/-- `ENC5` (40_encoder.md R126). -/
def execEnc5 (v : CodePoint) (s : State) : Host.Outcome State Fault Refusal := encodeClass 4 v s

/-- `ENC6` (40_encoder.md R127). -/
def execEnc6 (v : CodePoint) (s : State) : Host.Outcome State Fault Refusal := encodeClass 5 v s

/-- `ENC.TOOLARGE` (40_encoder.md R128). -/
def execEncToolarge (v : CodePoint) (s : State) : Host.Outcome State Fault Refusal :=
  selected (s.enc.st == .run && classOf tables v == none)
    (raise .enc (.codePointTooLarge v tables.maxCp) s)

/-- `ENC.DRAIN` (40_encoder.md R130): the element is discarded, whatever it is. -/
def execEncDrain (_ : CodePoint) (s : State) : Host.Outcome State Fault Refusal :=
  selected (s.enc.st == .failed) s

/-- `ENC.END` (40_encoder.md R129), in either status. -/
def execEncEnd (s : State) : Host.Outcome State Fault Refusal :=
  .next (finish .enc (encResult s.enc) s)

end Sys2Proof.Machine
end

