-- ==== Sys2Proof/Machine/Symbol.lean ====
section
/-! DEFINITION. The six formats as instructions (30_encoding.md R81, R94 (a)): a whole symbol given to the decoder,
which handles its lead byte and then its continuation bytes, each by the rule of its own case (log entry 3). The
encoder's half of a format is the `ENC` case of its class. -/

namespace Sys2Proof.Machine

/-- `SEQ1` (30_encoding.md R81). -/
def execSeq1 (a : BitVec 7) (s : State) : Host.Outcome State Fault Refusal :=
  .next (consumeBytes (symbolBytes (.seq1 a)) s)

/-- `SEQ2` (30_encoding.md R81). -/
def execSeq2 (a : BitVec 5) (b : BitVec 6) (s : State) : Host.Outcome State Fault Refusal :=
  .next (consumeBytes (symbolBytes (.seq2 a b)) s)

/-- `SEQ3` (30_encoding.md R81). -/
def execSeq3 (a : BitVec 4) (b c : BitVec 6) (s : State) : Host.Outcome State Fault Refusal :=
  .next (consumeBytes (symbolBytes (.seq3 a b c)) s)

/-- `SEQ4` (30_encoding.md R81). -/
def execSeq4 (a : BitVec 3) (b c d : BitVec 6) (s : State) : Host.Outcome State Fault Refusal :=
  .next (consumeBytes (symbolBytes (.seq4 a b c d)) s)

/-- `SEQ5` (30_encoding.md R81). -/
def execSeq5 (a : BitVec 2) (b c d e : BitVec 6) (s : State) : Host.Outcome State Fault Refusal :=
  .next (consumeBytes (symbolBytes (.seq5 a b c d e)) s)

/-- `SEQ6` (30_encoding.md R81). -/
def execSeq6 (a : BitVec 1) (b c d e f : BitVec 6) (s : State) : Host.Outcome State Fault Refusal :=
  .next (consumeBytes (symbolBytes (.seq6 a b c d e f)) s)

end Sys2Proof.Machine
end

