-- ==== Sys2Proof/Machine/Dispatch.lean ====
section
/-! DEFINITION. One arm per row of spec/opcode_table.json. -/

namespace Sys2Proof.Machine

def exec (i : Instr) (s : State) : Host.Outcome State Fault Refusal :=
  match i with
  | .seq1 a => Sys2Proof.Machine.execSeq1 a s
  | .seq2 a b => Sys2Proof.Machine.execSeq2 a b s
  | .seq3 a b c => Sys2Proof.Machine.execSeq3 a b c s
  | .seq4 a b c d => Sys2Proof.Machine.execSeq4 a b c d s
  | .seq5 a b c d e => Sys2Proof.Machine.execSeq5 a b c d e s
  | .seq6 a b c d e f => Sys2Proof.Machine.execSeq6 a b c d e f s
  | .decLead1 b => Sys2Proof.Machine.execDecLead1 b s
  | .decLead2 b => Sys2Proof.Machine.execDecLead2 b s
  | .decLead3 b => Sys2Proof.Machine.execDecLead3 b s
  | .decLead4 b => Sys2Proof.Machine.execDecLead4 b s
  | .decLead5 b => Sys2Proof.Machine.execDecLead5 b s
  | .decLead6 b => Sys2Proof.Machine.execDecLead6 b s
  | .decBadlead10 b => Sys2Proof.Machine.execDecBadlead10 b s
  | .decBadleadFeff b => Sys2Proof.Machine.execDecBadleadFeff b s
  | .decCont b => Sys2Proof.Machine.execDecCont b s
  | .decBadcont0 b => Sys2Proof.Machine.execDecBadcont0 b s
  | .decBadcont11 b => Sys2Proof.Machine.execDecBadcont11 b s
  | .enc1 v => Sys2Proof.Machine.execEnc1 v s
  | .enc2 v => Sys2Proof.Machine.execEnc2 v s
  | .enc3 v => Sys2Proof.Machine.execEnc3 v s
  | .enc4 v => Sys2Proof.Machine.execEnc4 v s
  | .enc5 v => Sys2Proof.Machine.execEnc5 v s
  | .enc6 v => Sys2Proof.Machine.execEnc6 v s
  | .encToolarge v => Sys2Proof.Machine.execEncToolarge v s
  | .encDrain v => Sys2Proof.Machine.execEncDrain v s
  | .encEnd => Sys2Proof.Machine.execEncEnd s
  | .decDrain b => Sys2Proof.Machine.execDecDrain b s
  | .decEndOk => Sys2Proof.Machine.execDecEndOk s
  | .decEndTrunc => Sys2Proof.Machine.execDecEndTrunc s
  | .decEndFail => Sys2Proof.Machine.execDecEndFail s

end Sys2Proof.Machine
end

