-- ==== Sys2Proof/Machine/Fetch.lean ====
section
/-! DEFINITION. Which unit steps, and the case its head element is (20_memory.md R64, R67 (b), R72;
40_encoder.md R120; 41_decoder.md R150); and where a word of the opcode table is put to be run next. -/

namespace Sys2Proof.Machine

/-- After a step of the unit whose turn it is, while the other could also step: the burst goes on, or ends and
the length of the other unit's burst is drawn (log entry 1). -/
def Sched.advance (c : Sched) : Sched :=
  match c.quota with
  | 0 => { turn := c.turn.other, quota := Config.burst c.draw, draw := c.draw + 1 }
  | k + 1 => { c with quota := k }

/-- The unit that steps, and the state with the choice made; none when both inputs are empty. A unit is enabled
exactly when its input is not empty (20_memory.md R72). -/
def pick (s : State) : Option (Agent × State) :=
  match s.encIn, s.decIn with
  | [], [] => none
  | _ :: _, [] => some (.enc, s)
  | [], _ :: _ => some (.dec, s)
  | _ :: _, _ :: _ => some (s.sched.turn, { s with sched := s.sched.advance })

/-- The unit takes the element at the head of its input, which is consumed, and its dispatch table says which
case it is; none when the input is empty. -/
def fetch (u : Agent) (s : State) : Option (Instr × State) :=
  match u with
  | .enc =>
    match s.encIn with
    | [] => none
    | e :: rest => some (decodeEnc tables s.enc.st e, { s with encIn := rest })
  | .dec =>
    match s.decIn with
    | [] => none
    | e :: rest => some (decodeDec tables s.dec.st e, { s with decIn := rest })

/-- Puts an issue where the next step takes it: at the head of its unit's input, the unit in the status the issue
names (its other fields as after reset if the status changes), the turn the unit's (log entry 8). Of the bytes of
a symbol the next step takes the first. -/
def placeIssue (x : Issue) (s : State) : State :=
  match x with
  | .enc st e =>
    { s with
      encIn := e :: s.encIn
      enc := if s.enc.st = st then s.enc else { EncUnit.reset with st := st }
      sched := { s.sched with turn := .enc } }
  | .dec st e =>
    { s with
      decIn := e :: s.decIn
      dec := if s.dec.st = st then s.dec else { DecUnit.reset with st := st }
      sched := { s.sched with turn := .dec } }
  | .symbol bytes =>
    { s with
      decIn := bytes.map .data ++ s.decIn
      dec := if s.dec.st = .awaitLead then s.dec else DecUnit.reset
      sched := { s.sched with turn := .dec } }

end Sys2Proof.Machine
end

