-- ==== Sys2Proof/Machine/Step.lean ====
section
/-! DEFINITION. One step of a unit, one step of the machine, and the host's probe. -/

namespace Sys2Proof.Machine

/-- A step of one unit: it takes its head element and runs the case it is; with an empty input it does nothing
and keeps its state (20_memory.md R72). -/
def stepUnit (u : Agent) (s : State) : Host.Outcome State Fault Refusal :=
  match fetch u s with
  | none => .next s
  | some (i, s') => exec i s'

/-- A step of the machine: one step of one unit (20_memory.md R64). -/
def step (s : State) : Host.Outcome State Fault Refusal :=
  match pick s with
  | none => .next s
  | some (u, s') => stepUnit u s'

/-- `k` steps of one unit alone, as `ENC.RUN` and `DEC.RUN` of 30_encoding.md R95 need them. -/
def runUnit (u : Agent) : Nat → State → Host.Outcome State Fault Refusal
  | 0, s => .next s
  | k + 1, s =>
    match stepUnit u s with
    | .next s' => runUnit u k s'
    | .fault r => .fault r
    | .refused r => .refused r

/-- The word of an opcode-table row put where the next step takes it (log entry 8); a width the table does not
have changes nothing. -/
def State.withFetchWord (s : State) (nbits w : Nat) : State :=
  match issueOfTableWord nbits w with
  | none => s
  | some x => placeIssue x s

end Sys2Proof.Machine
end

