-- ==== Sys2Proof/Machine/Script.lean ====
section
/-! DEFINITION. The host's side as the script notation of 30_encoding.md R95 writes it, and the host's removal of
output elements (20_memory.md R58). -/

namespace Sys2Proof.Machine

/-- One line of a script, or the removal of an output element. -/
inductive HostAction where
  /-- `RESET` -/
  | reset
  /-- `ENC.PUT v` -/
  | encPut (v : CodePoint)
  /-- `ENC.END` -/
  | encEnd
  /-- `DEC.PUT b ...` -/
  | decPut (bytes : List Byte)
  /-- `DEC.END` -/
  | decEnd
  /-- `ENC.RUN` -/
  | encRun
  /-- `DEC.RUN` -/
  | decRun
  /-- The front element of `ENC.out` is removed, where there is one. -/
  | encTake
  /-- The front element of `DEC.out` is removed, where there is one. -/
  | decTake
  deriving DecidableEq, Repr

/-- What a line does. A unit runs until its input is empty, one step an element (70_reset_and_hazards.md R274). -/
def applyAction (a : HostAction) (s : State) : Host.Outcome State Fault Refusal :=
  match a with
  | .reset => .next (hostReset s)
  | .encPut v => .next (hostPutEnc (.data v) s)
  | .encEnd => .next (hostPutEnc .endMark s)
  | .decPut bytes => .next (bytes.foldl (fun t b => hostPutDec (.data b) t) s)
  | .decEnd => .next (hostPutDec .endMark s)
  | .encRun => runUnit .enc s.encIn.length s
  | .decRun => runUnit .dec s.decIn.length s
  | .encTake =>
    match hostTakeEnc s with
    | none => .next s
    | some (_, s') => .next s'
  | .decTake =>
    match hostTakeDec s with
    | none => .next s
    | some (_, s') => .next s'

/-- A script, line by line. -/
def runScript : List HostAction → State → Host.Outcome State Fault Refusal
  | [], s => .next s
  | a :: rest, s =>
    match applyAction a s with
    | .next s' => runScript rest s'
    | .fault r => .fault r
    | .refused r => .refused r

end Sys2Proof.Machine
end

