-- ==== Sys2Proof/Machine/Functions.lean ====
section
/-! DEFINITION. The function level (42_transactions.md): `encode` and `decode` from a whole sequence to a sequence
or one error, for any configuration of the tables; and the reading of streams as calls and results (20_memory.md
R59, R60). `OK(s)` is `.ok s`, `ERR(e)` is `.error e` (42_transactions.md R190). -/

namespace Sys2Proof.Machine

/-- `encode_one(v)` (42_transactions.md R192). -/
def encodeOne (cfg : Config) (v : CodePoint) : Except ErrorRecord (List Byte) :=
  match classOf cfg v with
  | none => .error (.codePointTooLarge v cfg.maxCp)
  | some n => .ok (encSym cfg n v)

/-- `encode(S)` (42_transactions.md R191): the bytes of every element in order, or the error of the first
element that has one. -/
def encodeSeq (cfg : Config) : List CodePoint → Except ErrorRecord (List Byte)
  | [] => .ok []
  | v :: rest =>
    match encodeOne cfg v with
    | .error e => .error e
    | .ok bs =>
      match encodeSeq cfg rest with
      | .error e => .error e
      | .ok out => .ok (bs ++ out)

/-- Step 4 of `decode_one` (42_transactions.md R194): `k` more continuation bytes, in order, into `acc`; the bytes
after them are returned in place of an index. -/
def decodeConts (cfg : Config) : Nat → CodePoint → List Byte → Except ErrorRecord (CodePoint × List Byte)
  | 0, acc, bytes => .ok (acc, bytes)
  | _ + 1, _, [] => .error .unexpectedEnd
  | k + 1, acc, c :: rest =>
    if isCont cfg c then decodeConts cfg k (accumulate cfg acc c) rest
    else .error (.invalidContinuationByte c)

/-- `decode_one` at the front of a byte sequence (42_transactions.md R194). It is used on a sequence that is not
empty; on the empty one it answers as for a truncated symbol (log entry 22). -/
def decodeOne (cfg : Config) : List Byte → Except ErrorRecord (CodePoint × List Byte)
  | [] => .error .unexpectedEnd
  | b :: rest =>
    match leadClass cfg b with
    | none => .error (.invalidLeadByte b)
    | some n => decodeConts cfg n.val (leadPayload cfg n b) rest

/-- The loop of `decode` (42_transactions.md R193). Every turn consumes at least one byte, so a fuel of the
sequence's length is never used up; the answer for too little fuel is never seen (log entry 22). -/
def decodeLoop (cfg : Config) : Nat → List Byte → Except ErrorRecord (List CodePoint)
  | _, [] => .ok []
  | 0, _ :: _ => .error .unexpectedEnd
  | fuel + 1, b :: rest =>
    match decodeOne cfg (b :: rest) with
    | .error e => .error e
    | .ok (v, after) =>
      match decodeLoop cfg fuel after with
      | .error e => .error e
      | .ok out => .ok (v :: out)

/-- `decode(B)` (42_transactions.md R193). -/
def decodeSeq (cfg : Config) (bytes : List Byte) : Except ErrorRecord (List CodePoint) :=
  decodeLoop cfg bytes.length bytes

/-- The input elements of one call: its data, then `END` (20_memory.md R59). -/
def callElems {α : Type} (xs : List α) : List (InElem α) := xs.map .data ++ [.endMark]

/-- The results of the finished transactions of an output stream, `acc` being the data elements met since the last
`DONE`. The data elements before a `DONE(ERR(e))` are void (20_memory.md R60), and data elements without a `DONE`
are no result (70_reset_and_hazards.md R270). -/
def resultsFrom {α : Type} (acc : List α) : List (OutElem α) → List (Except ErrorRecord (List α))
  | [] => []
  | .data a :: rest => resultsFrom (acc ++ [a]) rest
  | .done .ok :: rest => .ok acc :: resultsFrom [] rest
  | .done (.err e) :: rest => .error e :: resultsFrom [] rest

/-- What a host may observe of an output stream (42_transactions.md R200, 93_implementation_defined.md U1). -/
def results {α : Type} (out : List (OutElem α)) : List (Except ErrorRecord (List α)) := resultsFrom [] out

end Sys2Proof.Machine
end

