-- ==== Sys2Proof/Safety.lean ====
section
/-! DEFINITION. What a state of a run must satisfy: the legal values of the error records (10_state.md R22, R23,
R30), the invariants of 10_state.md R35, and what may stand on an output stream (20_memory.md R53, R56;
40_encoder.md R131; 41_decoder.md R171). -/

namespace Sys2Proof.Machine

/-- An error the encoder can record: the value is above the range and `max` is `MAXCP` (40_encoder.md R128). -/
def isEncodeError : ErrorRecord → Bool
  | .codePointTooLarge v m => tables.maxCp < v && m == tables.maxCp
  | _ => false

/-- An error the decoder can record: the byte has no lead pattern, or no continuation pattern (41_decoder.md R157,
R160). `UnexpectedEnd` is never stored (90_conflicts.md C9). -/
def isStoredDecodeError : ErrorRecord → Bool
  | .invalidLeadByte b => leadClass tables b == none
  | .invalidContinuationByte b => !isCont tables b
  | _ => false

/-- An error the decoder can deliver (60_exceptions.md R220). -/
def isDecodeError (e : ErrorRecord) : Bool := e == .unexpectedEnd || isStoredDecodeError e

/-- The encoder's part of 10_state.md R35, with the legal values of R22. -/
abbrev EncUnit.Legal (u : EncUnit) : Prop :=
  (u.st = .failed ↔ u.err ≠ .none) ∧ (u.err = .none ∨ isEncodeError u.err = true)

/-- Invariants (a) to (d) of 10_state.md R35, with the legal values of R23. The class of the current symbol is no
field; (c) says that some class fits. -/
abbrev DecUnit.Legal (u : DecUnit) : Prop :=
  (u.st = .awaitCont ↔ u.rem ≠ 0) ∧
  (u.st = .failed ↔ u.err ≠ .none) ∧
  (u.err = .none ∨ isStoredDecodeError u.err = true) ∧
  (u.st = .awaitCont → ∃ n : Fin 6, u.rem ≤ n ∧
    u.acc.toNat < 2 ^ (tables.leadBits[n] + tables.contBits * (n.val - u.rem.val))) ∧
  (u.st ≠ .awaitCont → u.acc = 0)

/-- An element the encoder may append: a byte with a lead or the continuation pattern other than `C0` and `C1`
(40_encoder.md R131, R123), or `DONE` with a legal result. -/
def encOutLegal : OutElem Byte → Bool
  | .data b => (leadClass tables b != none || isCont tables b) && b != 0xC0 && b != 0xC1
  | .done .ok => true
  | .done (.err e) => isEncodeError e

/-- An element the decoder may append: a code point of the range (41_decoder.md R171), or `DONE` with a legal
result. -/
def decOutLegal : OutElem CodePoint → Bool
  | .data v => v ≤ tables.maxCp
  | .done .ok => true
  | .done (.err e) => isDecodeError e

/-- The invariant of every run from reset. -/
abbrev State.Inv (s : State) : Prop :=
  s.enc.Legal ∧ s.dec.Legal ∧
  (∀ e ∈ s.encOut, encOutLegal e = true) ∧ (∀ e ∈ s.decOut, decOutLegal e = true)

/-- A run is safe when it has not stopped. -/
def Safe (o : Host.Outcome State Fault Refusal) : Prop := ∃ s, o = .next s

end Sys2Proof.Machine
end

