-- ==== Sys2Proof/Certificates/Slice0/Obligations.lean ====
section
/-! DEFINITION. The statements for the provers. Each docstring names the rule of the spec it formalises, or the log
entry of the model's choice it rests on. -/

open Sys2Proof Sys2Proof.Machine

/-! ## Reset and the invariant -/

/-- 10_state.md R33, 70_reset_and_hazards.md R260, R261: what reset leaves, from any state. -/
def Obligations.ResetLeavesTheSpecsValues : Prop :=
  ∀ s : State, ∃ t, hostReset s = t ∧ core.reset = t ∧
    t.enc.st = .run ∧ t.enc.err = .none ∧
    t.dec.st = .awaitLead ∧ t.dec.rem = 0 ∧ t.dec.acc = 0 ∧ t.dec.err = .none ∧
    t.encIn = [] ∧ t.encOut = [] ∧ t.decIn = [] ∧ t.decOut = []

/-- 10_state.md R35: the invariant holds at reset. -/
def Obligations.ResetMeetsTheInvariant : Prop := State.reset.Inv

/-- 10_state.md R35, with the legal values of R22, R23, R53, R56, 40_encoder.md R131 and 41_decoder.md R171: every
step keeps the invariant. -/
def Obligations.StepKeepsTheInvariant : Prop :=
  ∀ s t : State, s.Inv → step s = .next t → t.Inv

/-! ## Encoding -/

/-- 30_encoding.md R81 to R83, R94: decoding what the encoder writes for a well-formed instruction gives the
instruction, all 30 of them. -/
def Obligations.DecodeOfEncodeIsTheInstruction : Prop :=
  ∀ i : Instr, i.wf = true → decode tables (encode i) = .ok i

/-- 30_encoding.md R86, R93: whatever is decoded is well formed, and is written as it was read, but for `END` in
`FAILED` on `ENC.in`. `ENC.END` is one row for both statuses (40_encoder.md R120); that it is written with `RUN`, and
so the case left out, is the model's choice (log entry 21). -/
def Obligations.EncodeOfDecodeIsTheIssue : Prop :=
  ∀ (x : Issue) (i : Instr), decode tables x = .ok i →
    i.wf = true ∧ (x ≠ .enc .failed .endMark → encode i = x)

/-- Words written out from 30_encoding.md R81 and the opcode table. A bare word says neither unit nor status: that 8
bits are read in `AWAIT_LEAD`, and 32 bits as `SEQ4` where they have its pattern and else as a code point in `RUN`,
is the model's choice (log entry 8). -/
def Obligations.TableWordsDecode : Prop :=
  decodeTableWord 16 0b1101000010010110 = some (.seq2 0b10000 0b010110) ∧
  decodeTableWord 24 0b111000101000001010101100 = some (.seq3 0b0010 0b000010 0b101100) ∧
  decodeTableWord 32 0b11110000100100001000110110001000 = some (.seq4 0b000 0b010000 0b001101 0b001000) ∧
  decodeTableWord 8 0b11100010 = some (.decLead3 0xE2) ∧
  decodeTableWord 8 0b11111111 = some (.decBadleadFeff 0xFF) ∧
  decodeTableWord 32 0b00000000000000000000010000010110 = some (.enc2 0x416) ∧
  decodeTableWord 32 0b10000000000000000000000000000000 = some (.encToolarge 0x80000000)

/-- 40_encoder.md R120: the encoder's dispatch table, by the ranges it prints. -/
def Obligations.EncoderDispatchIsTheTable : Prop :=
  ∀ v : CodePoint,
    (v ≤ 0x7F → decodeEnc tables .run (.data v) = .enc1 v) ∧
    (0x80 ≤ v → v ≤ 0x7FF → decodeEnc tables .run (.data v) = .enc2 v) ∧
    (0x800 ≤ v → v ≤ 0xFFFF → decodeEnc tables .run (.data v) = .enc3 v) ∧
    (0x10000 ≤ v → v ≤ 0x1FFFFF → decodeEnc tables .run (.data v) = .enc4 v) ∧
    (0x200000 ≤ v → v ≤ 0x3FFFFFF → decodeEnc tables .run (.data v) = .enc5 v) ∧
    (0x4000000 ≤ v → v ≤ 0x7FFFFFFF → decodeEnc tables .run (.data v) = .enc6 v) ∧
    (0x80000000 ≤ v → decodeEnc tables .run (.data v) = .encToolarge v) ∧
    decodeEnc tables .failed (.data v) = .encDrain v ∧
    (∀ st : EncSt, decodeEnc tables st .endMark = .encEnd)

/-- 41_decoder.md R150: the decoder's dispatch table, by the ranges it prints; each error case has its two rows. -/
def Obligations.DecoderDispatchIsTheTable : Prop :=
  ∀ b : Byte,
    (b ≤ 0x7F → decodeDec tables .awaitLead (.data b) = .decLead1 b) ∧
    (0xC0 ≤ b → b ≤ 0xDF → decodeDec tables .awaitLead (.data b) = .decLead2 b) ∧
    (0xE0 ≤ b → b ≤ 0xEF → decodeDec tables .awaitLead (.data b) = .decLead3 b) ∧
    (0xF0 ≤ b → b ≤ 0xF7 → decodeDec tables .awaitLead (.data b) = .decLead4 b) ∧
    (0xF8 ≤ b → b ≤ 0xFB → decodeDec tables .awaitLead (.data b) = .decLead5 b) ∧
    (0xFC ≤ b → b ≤ 0xFD → decodeDec tables .awaitLead (.data b) = .decLead6 b) ∧
    (0x80 ≤ b → b ≤ 0xBF → decodeDec tables .awaitLead (.data b) = .decBadlead10 b) ∧
    (0xFE ≤ b → decodeDec tables .awaitLead (.data b) = .decBadleadFeff b) ∧
    (0x80 ≤ b → b ≤ 0xBF → decodeDec tables .awaitCont (.data b) = .decCont b) ∧
    (b ≤ 0x7F → decodeDec tables .awaitCont (.data b) = .decBadcont0 b) ∧
    (0xC0 ≤ b → decodeDec tables .awaitCont (.data b) = .decBadcont11 b) ∧
    decodeDec tables .failed (.data b) = .decDrain b ∧
    decodeDec tables .awaitLead .endMark = .decEndOk ∧
    decodeDec tables .awaitCont .endMark = .decEndTrunc ∧
    decodeDec tables .failed .endMark = .decEndFail

/-- 30_encoding.md R85: the class of a code point is told by its highest set bit. -/
def Obligations.ClassIsToldByTheHighestBit : Prop :=
  ∀ (v : CodePoint) (n : Fin 6), classOf tables v = some n ↔
    (v >>> tables.budget[n] = 0 ∧ ∀ m : Fin 6, m < n → v >>> tables.budget[m] ≠ 0)

/-- 00_scope.md R7 (d): a configuration that passes the pattern check has no byte that matches two patterns. -/
def Obligations.PatternCheckMakesPatternsDisjoint : Prop :=
  ∀ (cfg : Config) (b : Byte) (m n : Fin 6), cfg.allPatternsDisjoint = true → isLead cfg n b = true →
    isCont cfg b = false ∧ (isLead cfg m b = true → m = n)

/-! ## The encoder's cases -/

/-- 40_encoder.md R122, R123, R124: the bytes of a code point of class 0, 1, 2, and that nothing else changes. -/
def Obligations.EncodesClasses0To2 : Prop :=
  ∀ (v : CodePoint) (s : State), s.enc.st = .run →
    (v ≤ 0x7F → exec (.enc1 v) s = .next { s with encOut := s.encOut ++ [.data (v.setWidth 8)] }) ∧
    (0x80 ≤ v → v ≤ 0x7FF → exec (.enc2 v) s = .next { s with encOut := s.encOut ++
      [.data (BitVec.setWidth 8 (0xC0#32 ||| v >>> 6)), .data (BitVec.setWidth 8 (0x80#32 ||| (v &&& 0x3F)))] }) ∧
    (0x800 ≤ v → v ≤ 0xFFFF → exec (.enc3 v) s = .next { s with encOut := s.encOut ++
      [.data (BitVec.setWidth 8 (0xE0#32 ||| v >>> 12)), .data (BitVec.setWidth 8 (0x80#32 ||| (v >>> 6 &&& 0x3F))),
        .data (BitVec.setWidth 8 (0x80#32 ||| (v &&& 0x3F)))] })

/-- 40_encoder.md R125, R126, R127: the bytes of a code point of class 3, 4, 5, and that nothing else changes. The
bound between classes 3 and 4 is `CEIL[3]` as 90_conflicts.md C1 and 92_eei_decisions.md D12 resolve it
(log entry 5). -/
def Obligations.EncodesClasses3To5 : Prop :=
  ∀ (v : CodePoint) (s : State), s.enc.st = .run →
    (0x10000 ≤ v → v ≤ 0x1FFFFF → exec (.enc4 v) s = .next { s with encOut := s.encOut ++
      [.data (BitVec.setWidth 8 (0xF0#32 ||| v >>> 18)), .data (BitVec.setWidth 8 (0x80#32 ||| (v >>> 12 &&& 0x3F))),
        .data (BitVec.setWidth 8 (0x80#32 ||| (v >>> 6 &&& 0x3F))),
        .data (BitVec.setWidth 8 (0x80#32 ||| (v &&& 0x3F)))] }) ∧
    (0x200000 ≤ v → v ≤ 0x3FFFFFF → exec (.enc5 v) s = .next { s with encOut := s.encOut ++
      [.data (BitVec.setWidth 8 (0xF8#32 ||| v >>> 24)), .data (BitVec.setWidth 8 (0x80#32 ||| (v >>> 18 &&& 0x3F))),
        .data (BitVec.setWidth 8 (0x80#32 ||| (v >>> 12 &&& 0x3F))),
        .data (BitVec.setWidth 8 (0x80#32 ||| (v >>> 6 &&& 0x3F))),
        .data (BitVec.setWidth 8 (0x80#32 ||| (v &&& 0x3F)))] }) ∧
    (0x4000000 ≤ v → v ≤ 0x7FFFFFFF → exec (.enc6 v) s = .next { s with encOut := s.encOut ++
      [.data (BitVec.setWidth 8 (0xFC#32 ||| v >>> 30)), .data (BitVec.setWidth 8 (0x80#32 ||| (v >>> 24 &&& 0x3F))),
        .data (BitVec.setWidth 8 (0x80#32 ||| (v >>> 18 &&& 0x3F))),
        .data (BitVec.setWidth 8 (0x80#32 ||| (v >>> 12 &&& 0x3F))),
        .data (BitVec.setWidth 8 (0x80#32 ||| (v >>> 6 &&& 0x3F))),
        .data (BitVec.setWidth 8 (0x80#32 ||| (v &&& 0x3F)))] })

/-- 40_encoder.md R128: a code point above the range raises `CodePointTooLarge`, appends nothing, changes nothing
else. -/
def Obligations.TooLargeCodePointRaises : Prop :=
  ∀ (v : CodePoint) (s : State), s.enc.st = .run → 0x80000000 ≤ v →
    exec (.encToolarge v) s =
      .next { s with enc := { st := .failed, err := .codePointTooLarge v 0x7FFFFFFF } }

/-- 40_encoder.md R130 and 41_decoder.md R163: in `FAILED` a data element is consumed and discarded, whatever it is;
no field and no stream changes. -/
def Obligations.FailedUnitsDiscardData : Prop :=
  (∀ (v : CodePoint) (s : State), s.enc.st = .failed → exec (.encDrain v) s = .next s) ∧
  (∀ (b : Byte) (s : State), s.dec.st = .failed → exec (.decDrain b) s = .next s)

/-- 40_encoder.md R129: `END` appends the transaction's result and returns the encoder's fields to their reset
values; nothing else changes. -/
def Obligations.EncoderEndDeliversTheResult : Prop :=
  ∀ s : State,
    (s.enc.st = .run → exec .encEnd s =
      .next { s with enc := { st := .run, err := .none }, encOut := s.encOut ++ [.done .ok] }) ∧
    (s.enc.st = .failed → exec .encEnd s =
      .next { s with enc := { st := .run, err := .none }, encOut := s.encOut ++ [.done (.err s.enc.err)] })

/-! ## The decoder's cases -/

/-- 41_decoder.md R151: a lead byte of class 0 is a whole symbol; only the output stream changes. -/
def Obligations.OneByteSymbolDecodes : Prop :=
  ∀ (b : Byte) (s : State), s.dec.st = .awaitLead → b ≤ 0x7F →
    exec (.decLead1 b) s = .next { s with decOut := s.decOut ++ [.data (b.setWidth 32)] }

/-- 41_decoder.md R152 to R156: a lead byte of class 1 to 5 loads the accumulator and the count; `err`, the streams
and the encoder do not change. -/
def Obligations.LeadBytesBeginSymbols : Prop :=
  ∀ (b : Byte) (s : State), s.dec.st = .awaitLead →
    (0xC0 ≤ b → b ≤ 0xDF → exec (.decLead2 b) s = .next { s with dec :=
      { s.dec with st := .awaitCont, rem := 1, acc := BitVec.setWidth 32 (b &&& 0x1F) } }) ∧
    (0xE0 ≤ b → b ≤ 0xEF → exec (.decLead3 b) s = .next { s with dec :=
      { s.dec with st := .awaitCont, rem := 2, acc := BitVec.setWidth 32 (b &&& 0x0F) } }) ∧
    (0xF0 ≤ b → b ≤ 0xF7 → exec (.decLead4 b) s = .next { s with dec :=
      { s.dec with st := .awaitCont, rem := 3, acc := BitVec.setWidth 32 (b &&& 0x07) } }) ∧
    (0xF8 ≤ b → b ≤ 0xFB → exec (.decLead5 b) s = .next { s with dec :=
      { s.dec with st := .awaitCont, rem := 4, acc := BitVec.setWidth 32 (b &&& 0x03) } }) ∧
    (0xFC ≤ b → b ≤ 0xFD → exec (.decLead6 b) s = .next { s with dec :=
      { s.dec with st := .awaitCont, rem := 5, acc := BitVec.setWidth 32 (b &&& 0x01) } })

/-- 41_decoder.md R157: a byte in lead position that is no lead byte raises `InvalidLeadByte` with the byte itself;
nothing is appended. `rem` and `acc` are written 0, as 60_exceptions.md R232 (c) says. -/
def Obligations.BadLeadBytesRaise : Prop :=
  ∀ (b : Byte) (s : State), s.dec.st = .awaitLead →
    (0x80 ≤ b → b ≤ 0xBF → exec (.decBadlead10 b) s = .next { s with dec :=
      { st := .failed, rem := 0, acc := 0, err := .invalidLeadByte b } }) ∧
    (0xFE ≤ b → exec (.decBadleadFeff b) s = .next { s with dec :=
      { st := .failed, rem := 0, acc := 0, err := .invalidLeadByte b } })

/-- 41_decoder.md R158: a continuation byte shifts its six bits in; the last one of a symbol appends the code point and
returns to `AWAIT_LEAD`. `rem` is 1 to 5, as the rule's operands say; 0 is ruled out in `AWAIT_CONT` by
`StepKeepsTheInvariant`. -/
def Obligations.ContinuationBytesAccumulate : Prop :=
  ∀ (b : Byte) (s : State), s.dec.st = .awaitCont → 0x80 ≤ b → b ≤ 0xBF →
    (∀ r : Fin 6, 1 < s.dec.rem.val → r.val = s.dec.rem.val - 1 →
      exec (.decCont b) s = .next { s with dec :=
        { s.dec with acc := (s.dec.acc <<< 6) ||| BitVec.setWidth 32 (b &&& 0x3F), rem := r } }) ∧
    (s.dec.rem = 1 →
      exec (.decCont b) s = .next { s with
        dec := { s.dec with st := .awaitLead, rem := 0, acc := 0 }
        decOut := s.decOut ++ [.data ((s.dec.acc <<< 6) ||| BitVec.setWidth 32 (b &&& 0x3F))] })

/-- 41_decoder.md R160: a byte in continuation position that is no continuation byte raises
`InvalidContinuationByte` with the byte itself; the partly assembled code point is dropped, nothing is appended. -/
def Obligations.BadContinuationBytesRaise : Prop :=
  ∀ (b : Byte) (s : State), s.dec.st = .awaitCont →
    (b ≤ 0x7F → exec (.decBadcont0 b) s = .next { s with dec :=
      { st := .failed, rem := 0, acc := 0, err := .invalidContinuationByte b } }) ∧
    (0xC0 ≤ b → exec (.decBadcont11 b) s = .next { s with dec :=
      { st := .failed, rem := 0, acc := 0, err := .invalidContinuationByte b } })

/-- 41_decoder.md R161, R162, R164: `END` between symbols, inside a symbol and after an error. -/
def Obligations.DecoderEndDeliversTheResult : Prop :=
  ∀ s : State,
    (s.dec.st = .awaitLead → exec .decEndOk s = .next { s with
      dec := { st := .awaitLead, rem := 0, acc := 0, err := .none }
      decOut := s.decOut ++ [.done .ok] }) ∧
    (s.dec.st = .awaitCont → exec .decEndTrunc s = .next { s with
      dec := { st := .awaitLead, rem := 0, acc := 0, err := .none }
      decOut := s.decOut ++ [.done (.err .unexpectedEnd)] }) ∧
    (s.dec.st = .failed → exec .decEndFail s = .next { s with
      dec := { st := .awaitLead, rem := 0, acc := 0, err := .none }
      decOut := s.decOut ++ [.done (.err s.dec.err)] })

/-! ## The symbol formats as instructions (log entry 3) -/

/-- 30_encoding.md R81, R84: a whole symbol in lead position appends the one code point whose bits its fields are, and
leaves the decoder between symbols; `err`, the other streams and the encoder do not change. That a format runs as an
instruction is the model's choice (log entry 3). -/
def Obligations.SymbolsDecodeToTheirFields : Prop :=
  ∀ s : State, s.dec.st = .awaitLead →
    (∀ a, exec (.seq1 a) s = .next { s with decOut := s.decOut ++ [.data (BitVec.setWidth 32 a)] }) ∧
    (∀ a b, exec (.seq2 a b) s = .next { s with
      dec := { s.dec with rem := 0, acc := 0 }
      decOut := s.decOut ++ [.data (BitVec.setWidth 32 a <<< 6 ||| BitVec.setWidth 32 b)] }) ∧
    (∀ a b c, exec (.seq3 a b c) s = .next { s with
      dec := { s.dec with rem := 0, acc := 0 }
      decOut := s.decOut ++ [.data (BitVec.setWidth 32 a <<< 12 ||| BitVec.setWidth 32 b <<< 6 |||
        BitVec.setWidth 32 c)] }) ∧
    (∀ a b c d, exec (.seq4 a b c d) s = .next { s with
      dec := { s.dec with rem := 0, acc := 0 }
      decOut := s.decOut ++ [.data (BitVec.setWidth 32 a <<< 18 ||| BitVec.setWidth 32 b <<< 12 |||
        BitVec.setWidth 32 c <<< 6 ||| BitVec.setWidth 32 d)] }) ∧
    (∀ a b c d e, exec (.seq5 a b c d e) s = .next { s with
      dec := { s.dec with rem := 0, acc := 0 }
      decOut := s.decOut ++ [.data (BitVec.setWidth 32 a <<< 24 ||| BitVec.setWidth 32 b <<< 18 |||
        BitVec.setWidth 32 c <<< 12 ||| BitVec.setWidth 32 d <<< 6 ||| BitVec.setWidth 32 e)] }) ∧
    (∀ a b c d e f, exec (.seq6 a b c d e f) s = .next { s with
      dec := { s.dec with rem := 0, acc := 0 }
      decOut := s.decOut ++ [.data (BitVec.setWidth 32 a <<< 30 ||| BitVec.setWidth 32 b <<< 24 |||
        BitVec.setWidth 32 c <<< 18 ||| BitVec.setWidth 32 d <<< 12 ||| BitVec.setWidth 32 e <<< 6 |||
        BitVec.setWidth 32 f)] })

/-- 41_decoder.md R160, R163: a symbol that arrives in continuation position fails on its lead byte and its other
bytes are discarded; one that arrives after an error is discarded whole (log entry 3). -/
def Obligations.SymbolsOutOfPlaceAreNotDecoded : Prop :=
  ∀ (i : Instr) (s : State) (lead : Byte), (symbolBytes i).head? = some lead →
    (s.dec.st = .awaitCont → exec i s = .next { s with dec :=
      { st := .failed, rem := 0, acc := 0, err := .invalidContinuationByte lead } }) ∧
    (s.dec.st = .failed → exec i s = .next s)

/-- 20_memory.md R64: the decoder, stepped once for each byte of a symbol at the head of its input, does what the
symbol's instruction does (log entry 3). -/
def Obligations.StepsOfSymbolBytesAreTheSymbol : Prop :=
  ∀ (i : Instr) (s : State) (rest : List (InElem Byte)), symbolBytes i ≠ [] →
    s.decIn = (symbolBytes i).map .data ++ rest →
    runUnit .dec (symbolBytes i).length s = exec i { s with decIn := rest }

/-- 30_encoding.md R84, 40_encoder.md R132: the bytes the encoder emits for a code point are the symbol that carries
exactly its bits. -/
def Obligations.EmittedSymbolCarriesTheCodePoint : Prop :=
  ∀ (v : CodePoint) (n : Fin 6), classOf tables v = some n →
    ∃ i, decodeSymbol tables (encSym tables n v) = .ok (i, []) ∧ symbolBytes i = encSym tables n v ∧
      symbolCodePoint i = v

/-! ## The step -/

/-- 40_encoder.md R120, 41_decoder.md R150: a case runs exactly where its dispatch table selects it, and is refused by
name elsewhere; the refusal is the model's choice (log entry 4). That a symbol format (30_encoding.md R94 (a)) is an
instruction, which runs in every state, is the model's choice too (log entry 3). -/
def Obligations.CasesRunExactlyWhereSelected : Prop :=
  ∀ (i : Instr) (s : State),
    (symbolBytes i ≠ [] ∨ (∃ e, decodeEnc tables s.enc.st e = i) ∨ (∃ e, decodeDec tables s.dec.st e = i) →
      ∃ t, exec i s = .next t) ∧
    (symbolBytes i = [] → (∀ e, decodeEnc tables s.enc.st e ≠ i) → (∀ e, decodeDec tables s.dec.st e ≠ i) →
      exec i s = .refused .caseNotSelected)

/-- 40_encoder.md R120, 41_decoder.md R150: a step runs the case its unit's head element decodes to, on the state
without that element; where both units could step, the one whose turn it is (log entry 1). -/
def Obligations.StepRunsTheDecodedCase : Prop :=
  ∀ (s : State),
    (∀ e rest, s.encIn = e :: rest → s.decIn = [] →
      step s = exec (decodeEnc tables s.enc.st e) { s with encIn := rest }) ∧
    (∀ e rest, s.decIn = e :: rest → s.encIn = [] →
      step s = exec (decodeDec tables s.dec.st e) { s with decIn := rest }) ∧
    (∀ e rest e' rest', s.encIn = e :: rest → s.decIn = e' :: rest' → s.sched.turn = .enc →
      step s = exec (decodeEnc tables s.enc.st e) { s with encIn := rest, sched := s.sched.advance }) ∧
    (∀ e rest e' rest', s.encIn = e :: rest → s.decIn = e' :: rest' → s.sched.turn = .dec →
      step s = exec (decodeDec tables s.dec.st e') { s with decIn := rest', sched := s.sched.advance })

/-- 20_memory.md R72, 60_exceptions.md R245: a unit with an empty input does nothing and keeps its state; with both
inputs empty so does the machine. R72 gives an idle unit no step; that a step then answers the same state is the
model's reading (log entry 9). -/
def Obligations.IdleUnitsKeepTheirState : Prop :=
  ∀ s : State, (s.encIn = [] → stepUnit .enc s = .next s) ∧ (s.decIn = [] → stepUnit .dec s = .next s) ∧
    (s.encIn = [] → s.decIn = [] → step s = .next s)

/-- 60_exceptions.md R251, 30_encoding.md R93: no step of the machine, from any state, stops. -/
def Obligations.StepNeverStops : Prop := ∀ s : State, ∃ t, step s = .next t

/-- 20_memory.md R64, 10_state.md R24: a step takes exactly one element, from the front of one input, and only appends
to the outputs: at most six elements to `ENC.out`, at most one to `DEC.out`. -/
def Obligations.StepTakesOneElement : Prop :=
  ∀ s t : State, step s = .next t →
    ((s.encIn = [] ∧ s.decIn = [] ∧ t = s) ∨
      (∃ e, s.encIn = e :: t.encIn ∧ t.decIn = s.decIn ∧ t.decOut = s.decOut) ∨
      (∃ e, s.decIn = e :: t.decIn ∧ t.encIn = s.encIn ∧ t.encOut = s.encOut)) ∧
    (∃ xs, t.encOut = s.encOut ++ xs ∧ xs.length ≤ 6) ∧
    (∃ ys, t.decOut = s.decOut ++ ys ∧ ys.length ≤ 1)

/-- 20_memory.md R72, 70_reset_and_hazards.md R274: every element is consumed, one step an element. -/
def Obligations.EveryElementIsConsumed : Prop :=
  ∀ s : State, ∃ t, core.run (s.encIn.length + s.decIn.length) s = .next t ∧ t.encIn = [] ∧ t.decIn = []

/-- 20_memory.md R72: a unit that could step is passed over for a bounded time only: a burst ends and the turn passes.
How bursts are drawn is the model's choice (log entry 1). -/
def Obligations.BurstsEnd : Prop :=
  ∀ s : State, s.sched.quota < s.encIn.length → s.sched.quota < s.decIn.length →
    ∃ t, core.run (s.sched.quota + 1) s = .next t ∧ t.sched.turn = s.sched.turn.other ∧
      (s.sched.turn = .enc →
        t.decIn = s.decIn ∧ t.encIn.length + s.sched.quota + 1 = s.encIn.length) ∧
      (s.sched.turn = .dec →
        t.encIn = s.encIn ∧ t.decIn.length + s.sched.quota + 1 = s.decIn.length)

/-! ## The two units do not touch each other -/

/-- 10_state.md R21, 40_encoder.md R133: a step of a unit changes neither a field nor a stream of the other. -/
def Obligations.UnitsDoNotTouchEachOther : Prop :=
  ∀ s t : State,
    (stepUnit .enc s = .next t →
      t.dec = s.dec ∧ t.decIn = s.decIn ∧ t.decOut = s.decOut ∧ t.sched = s.sched) ∧
    (stepUnit .dec s = .next t →
      t.enc = s.enc ∧ t.encIn = s.encIn ∧ t.encOut = s.encOut ∧ t.sched = s.sched)

/-- 20_memory.md R67 (b): a step of `ENC` and a step of `DEC` commute. -/
def Obligations.UnitStepsCommute : Prop :=
  ∀ s a b : State, stepUnit .enc s = .next a → stepUnit .dec s = .next b →
    ∃ t, stepUnit .dec a = .next t ∧ stepUnit .enc b = .next t

/-- 20_memory.md R67 (b): any interleaving gives the same fields and the same contents on every stream. -/
def Obligations.InterleavingDoesNotMatter : Prop :=
  ∀ (s : State) (c : Sched) (k : Nat), s.encIn.length + s.decIn.length ≤ k →
    ∃ t d, core.run k s = .next t ∧ core.run k { s with sched := c } = .next { t with sched := d }

/-- 70_reset_and_hazards.md R273: an element appended before or after a step of the unit, and an output element removed
before or after it, make no difference. -/
def Obligations.PaceOfTheHostDoesNotMatter : Prop :=
  (∀ (s t : State) (e : InElem CodePoint), s.encIn ≠ [] → stepUnit .enc s = .next t →
    stepUnit .enc (hostPutEnc e s) = .next (hostPutEnc e t)) ∧
  (∀ (s t : State) (e : InElem Byte), s.decIn ≠ [] → stepUnit .dec s = .next t →
    stepUnit .dec (hostPutDec e s) = .next (hostPutDec e t)) ∧
  (∀ (s s' t : State) (x : OutElem Byte), hostTakeEnc s = some (x, s') → stepUnit .enc s = .next t →
    ∃ t', hostTakeEnc t = some (x, t') ∧ stepUnit .enc s' = .next t') ∧
  (∀ (s s' t : State) (x : OutElem CodePoint), hostTakeDec s = some (x, s') → stepUnit .dec s = .next t →
    ∃ t', hostTakeDec t = some (x, t') ∧ stepUnit .dec s' = .next t')

/-! ## Errors -/

/-- 60_exceptions.md R232, R220, 10_state.md R25: a unit enters `FAILED` only by consuming an offending data element;
the error carries it whole, nothing is appended, and the decoder drops what it had assembled. -/
def Obligations.FailedIsEnteredOnlyByAnError : Prop :=
  (∀ s t : State, stepUnit .enc s = .next t → s.enc.st ≠ .failed → t.enc.st = .failed →
    ∃ v, s.encIn = .data v :: t.encIn ∧ 0x7FFFFFFF < v ∧
      t.enc.err = .codePointTooLarge v 0x7FFFFFFF ∧ t.encOut = s.encOut) ∧
  (∀ s t : State, stepUnit .dec s = .next t → s.dec.st ≠ .failed → t.dec.st = .failed →
    ∃ b, s.decIn = .data b :: t.decIn ∧ t.dec.rem = 0 ∧ t.dec.acc = 0 ∧ t.decOut = s.decOut ∧
      ((s.dec.st = .awaitLead ∧ ((0x80 ≤ b ∧ b ≤ 0xBF) ∨ 0xFE ≤ b) ∧ t.dec.err = .invalidLeadByte b) ∨
        (s.dec.st = .awaitCont ∧ (b < 0x80 ∨ 0xBF < b) ∧ t.dec.err = .invalidContinuationByte b)))

/-- 60_exceptions.md R231, R236: while a unit is `FAILED` a data element changes none of its fields and appends
nothing, so the first error stays; only `END` leaves `FAILED`, and it delivers that error. -/
def Obligations.FailedIsLeftOnlyByEnd : Prop :=
  (∀ (s t : State) (e : InElem CodePoint) (rest : List (InElem CodePoint)), s.enc.st = .failed →
    s.encIn = e :: rest → stepUnit .enc s = .next t →
    if e = .endMark then t.enc = EncUnit.reset ∧ t.encOut = s.encOut ++ [.done (.err s.enc.err)]
    else t.enc = s.enc ∧ t.encOut = s.encOut) ∧
  (∀ (s t : State) (e : InElem Byte) (rest : List (InElem Byte)), s.dec.st = .failed →
    s.decIn = e :: rest → stepUnit .dec s = .next t →
    if e = .endMark then t.dec = DecUnit.reset ∧ t.decOut = s.decOut ++ [.done (.err s.dec.err)]
    else t.dec = s.dec ∧ t.decOut = s.decOut)

/-- 10_state.md R34, 20_memory.md R56: the step that consumes `END`, in whatever state, returns every field of the unit
to its reset value and appends exactly one `DONE`; and no other step appends a `DONE`. -/
def Obligations.EndReturnsTheUnitToReset : Prop :=
  (∀ (s t : State) (e : InElem CodePoint) (rest : List (InElem CodePoint)), s.encIn = e :: rest →
    stepUnit .enc s = .next t →
    if e = .endMark then t.enc = EncUnit.reset ∧ ∃ r, t.encOut = s.encOut ++ [.done r]
    else ∃ bs : List Byte, t.encOut = s.encOut ++ bs.map .data) ∧
  (∀ (s t : State) (e : InElem Byte) (rest : List (InElem Byte)), s.decIn = e :: rest →
    stepUnit .dec s = .next t →
    if e = .endMark then t.dec = DecUnit.reset ∧ ∃ r, t.decOut = s.decOut ++ [.done r]
    else ∃ vs : List CodePoint, t.decOut = s.decOut ++ vs.map .data)

/-! ## The function level -/

/-- 42_transactions.md R196: the round-trip law, for either value of `CEIL[3]`. -/
def Obligations.RoundTripLaw : Prop :=
  ∀ cfg : Config, cfg = tables ∨ cfg = printedTables →
    ∀ S : List CodePoint, (∀ v ∈ S, v ≤ 0x7FFFFFFF) →
      ∃ B, encodeSeq cfg S = .ok B ∧ decodeSeq cfg B = .ok S

/-- 42_transactions.md R191, R198: the first code point above the range decides the result, whatever follows it. -/
def Obligations.FirstTooLargeCodePointDecides : Prop :=
  ∀ cfg : Config, cfg = tables ∨ cfg = printedTables →
    ∀ (before : List CodePoint) (v : CodePoint) (after : List CodePoint),
      (∀ x ∈ before, x ≤ 0x7FFFFFFF) → 0x7FFFFFFF < v →
        encodeSeq cfg (before ++ v :: after) = .error (.codePointTooLarge v 0x7FFFFFFF)

/-- 42_transactions.md R197: the length-class boundaries, for either value of `CEIL[3]`. -/
def Obligations.LengthClassBoundaries : Prop :=
  ∀ cfg : Config, cfg = tables ∨ cfg = printedTables → ∀ n : Fin 6,
    (∃ bs, encodeOne cfg cfg.ceil[n] = .ok bs ∧ bs.length = n.val + 1) ∧
    (n.val < 5 → ∃ bs, encodeOne cfg (cfg.ceil[n] + 1) = .ok bs ∧ bs.length = n.val + 2) ∧
    encodeOne cfg (cfg.maxCp + 1) = .error (.codePointTooLarge (cfg.maxCp + 1) cfg.maxCp)

/-- 40_encoder.md R125, 93_implementation_defined.md U2: the printed `CEIL[3]` changes the encoder on `0x20000` to
`0x1FFFFF` only, where it would emit five bytes. -/
def Obligations.PrintedCeilingChangesOneRange : Prop :=
  ∀ v : CodePoint,
    (0x20000 ≤ v → v ≤ 0x1FFFFF →
      encodeOne tables v = .ok (encSym tables 3 v) ∧ encodeOne printedTables v = .ok (encSym tables 4 v)) ∧
    (v < 0x20000 ∨ 0x1FFFFF < v → encodeOne printedTables v = encodeOne tables v)

/-- 42_transactions.md R199: a lead byte of a multi-byte symbol alone, and a lead byte of class 1 before a byte that is
no continuation byte. -/
def Obligations.DecodeFailsAsStated : Prop :=
  (∀ b : Byte, 0xC0 ≤ b → b ≤ 0xFD → decodeSeq tables [b] = .error .unexpectedEnd) ∧
  (∀ l c : Byte, 0xC0 ≤ l → l ≤ 0xDF → (c < 0x80 ∨ 0xBF < c) →
    decodeSeq tables [l, c] = .error (.invalidContinuationByte c))

/-- 42_transactions.md R203, 40_encoder.md R134, 41_decoder.md R174: sizes. -/
def Obligations.SizesAreBounded : Prop :=
  (∀ (S : List CodePoint) (B : List Byte), encodeSeq tables S = .ok B →
    S.length ≤ B.length ∧ B.length ≤ 6 * S.length) ∧
  (∀ (B : List Byte) (S : List CodePoint), decodeSeq tables B = .ok S →
    S.length ≤ B.length ∧ B.length ≤ 6 * S.length)

/-- 42_transactions.md R202: encoding what was decoded gives the shortest form, and gives the bytes back exactly when
they were the shortest form. -/
def Obligations.EncodeOfDecodeIsShortest : Prop :=
  ∀ (B : List Byte) (S : List CodePoint), decodeSeq tables B = .ok S →
    ∃ B', encodeSeq tables S = .ok B' ∧ B'.length ≤ B.length ∧ (B'.length = B.length → B' = B)

/-- 30_encoding.md R91, R92, 42_transactions.md R194: any well-formed symbol, overlong or not, whatever its value, is
read as the code point its fields carry; only the marker checks are made. -/
def Obligations.WellFormedSymbolsAlwaysDecode : Prop :=
  ∀ (i : Instr) (rest : List Byte), symbolBytes i ≠ [] →
    decodeOne tables (symbolBytes i ++ rest) = .ok (symbolCodePoint i, rest)

/-- 60_exceptions.md R230, R231: the error at a bad byte is decided by what stands up to it; no later byte changes
it. -/
def Obligations.LaterBytesDoNotChangeAnError : Prop :=
  ∀ (B C : List Byte) (e : ErrorRecord), decodeSeq tables B = .error e → e ≠ .unexpectedEnd →
    decodeSeq tables (B ++ C) = .error e

/-- 41_decoder.md R171, R173: every code point decoded is in the range, and every error is one of the three, with the
byte that caused it. -/
def Obligations.DecodeAnswersAreLegal : Prop :=
  ∀ B : List Byte,
    (∀ S, decodeSeq tables B = .ok S → ∀ v ∈ S, v ≤ 0x7FFFFFFF) ∧
    (∀ e, decodeSeq tables B = .error e → e = .unexpectedEnd ∨
      (∃ b ∈ B, e = .invalidLeadByte b ∧ leadClass tables b = none) ∨
      (∃ b ∈ B, e = .invalidContinuationByte b ∧ isCont tables b = false))

/-! ## The two levels agree -/

/-- 20_memory.md R59, R60: how an output stream reads as results; what stands before a `DONE(ERR(e))` is void. -/
def Obligations.OutputReadsAsResults : Prop :=
  ∀ (xs : List Byte) (e : ErrorRecord) (rest : List (OutElem Byte)),
    results (xs.map .data ++ .done .ok :: rest) = .ok xs :: results rest ∧
    results (xs.map .data ++ .done (.err e) :: rest) = .error e :: results rest ∧
    results (xs.map OutElem.data) = []

/-- 42_transactions.md R200 (and 70_reset_and_hazards.md R274): a call on a unit in its reset state takes one step
an element and gives what the function gives; before an error there may stand void elements; the unit is again in its
reset state, and nothing else changes. -/
def Obligations.TheTwoLevelsAgree : Prop :=
  (∀ (S : List CodePoint) (rest : List (InElem CodePoint)) (s : State),
    s.enc = EncUnit.reset → s.encIn = callElems S ++ rest →
    ∃ out, runUnit .enc (S.length + 1) s = .next { s with encIn := rest, encOut := s.encOut ++ out } ∧
      (∀ B, encodeSeq tables S = .ok B → out = B.map .data ++ [.done .ok]) ∧
      (∀ e, encodeSeq tables S = .error e →
        ∃ void : List Byte, out = void.map .data ++ [.done (.err e)])) ∧
  (∀ (B : List Byte) (rest : List (InElem Byte)) (s : State),
    s.dec = DecUnit.reset → s.decIn = callElems B ++ rest →
    ∃ out, runUnit .dec (B.length + 1) s = .next { s with decIn := rest, decOut := s.decOut ++ out } ∧
      (∀ S, decodeSeq tables B = .ok S → out = S.map .data ++ [.done .ok]) ∧
      (∀ e, decodeSeq tables B = .error e →
        ∃ void : List CodePoint, out = void.map .data ++ [.done (.err e)]))

/-- 20_memory.md R59, R67, 10_state.md R34, 60_exceptions.md R237, 42_transactions.md R200: any number of calls on both
units, one after another, under any interleaving, each give the result of its own input sequence; then both units are
in their reset state. -/
def Obligations.CallsGiveTheirResultsUnderAnyInterleaving : Prop :=
  ∀ (Ss : List (List CodePoint)) (Bs : List (List Byte)) (c : Sched),
    ∃ k t, core.run k { State.reset with
        encIn := Ss.flatMap callElems, decIn := Bs.flatMap callElems, sched := c } = .next t ∧
      results t.encOut = Ss.map (encodeSeq tables) ∧ results t.decOut = Bs.map (decodeSeq tables) ∧
      t.enc = EncUnit.reset ∧ t.dec = DecUnit.reset ∧ t.encIn = [] ∧ t.decIn = []
end

