-- ==== Sys2Proof/Laws/Decode.lean ====
section
/-! SUPPORT. What the classifiers and the bit layouts give on the tables of this hardware. -/

namespace Sys2Proof

open Machine

/-- A class is one of six. -/
theorem class_cases (n : Fin 6) : n = 0 ∨ n = 1 ∨ n = 2 ∨ n = 3 ∨ n = 4 ∨ n = 5 := by
  revert n; decide

/-- `lead_class(b)` by ranges of the byte (41_decoder.md R159). -/
theorem leadClass_tables (b : Byte) :
    leadClass tables b =
      if b ≤ 0x7F then some 0 else if b ≤ 0xBF then none else if b ≤ 0xDF then some 1
      else if b ≤ 0xEF then some 2 else if b ≤ 0xF7 then some 3 else if b ≤ 0xFB then some 4
      else if b ≤ 0xFD then some 5 else none := by
  revert b; decide

/-- A continuation byte is a byte of `80` to `BF` (30_encoding.md R83). -/
theorem isCont_tables (b : Byte) : isCont tables b = (decide (0x80 ≤ b) && decide (b ≤ 0xBF)) := by
  revert b; decide

/-- A continuation byte is no lead byte (30_encoding.md R86). -/
theorem leadClass_of_isCont {b : Byte} (h : isCont tables b = true) : leadClass tables b = none := by
  revert b; decide

/-- A byte with neither a lead nor the continuation pattern is `FE` or `FF` (30_encoding.md R86). -/
theorem patternFeff_of_neither {b : Byte} (h : leadClass tables b = none) (hc : isCont tables b = false) :
    patternFeff b = true := by
  revert b; decide

/-- A byte that is no continuation byte has one of the two other patterns of its top bits (41_decoder.md R160). -/
theorem pattern0_eq_not_pattern11 {b : Byte} (h : isCont tables b = false) :
    pattern0 b = !pattern11 b := by
  revert b; decide

theorem isCont_contByte (g : BitVec 6) : isCont tables (contByte g) = true := by
  revert g; decide

theorem contByte_payload (g : BitVec 6) : (contByte g).setWidth 6 = g := by
  revert g; decide

theorem contByte_of_isCont {b : Byte} (h : isCont tables b = true) : contByte (b.setWidth 6) = b := by
  revert b; decide

/-- The six kinds of lead byte, as 30_encoding.md R81 writes them: the class, and the payload given back. -/
theorem lead1_fields (a : BitVec 7) :
    leadClass tables (0b0#1 ++ a) = some 0 ∧ BitVec.setWidth 7 (0b0#1 ++ a) = a ∧
      leadPayload tables 0 (0b0#1 ++ a) = a.setWidth 32 := by
  revert a; decide

theorem lead2_fields (a : BitVec 5) :
    leadClass tables (0b110#3 ++ a) = some 1 ∧ BitVec.setWidth 5 (0b110#3 ++ a) = a ∧
      leadPayload tables 1 (0b110#3 ++ a) = a.setWidth 32 := by
  revert a; decide

theorem lead3_fields (a : BitVec 4) :
    leadClass tables (0b1110#4 ++ a) = some 2 ∧ BitVec.setWidth 4 (0b1110#4 ++ a) = a ∧
      leadPayload tables 2 (0b1110#4 ++ a) = a.setWidth 32 := by
  revert a; decide

theorem lead4_fields (a : BitVec 3) :
    leadClass tables (0b11110#5 ++ a) = some 3 ∧ BitVec.setWidth 3 (0b11110#5 ++ a) = a ∧
      leadPayload tables 3 (0b11110#5 ++ a) = a.setWidth 32 := by
  revert a; decide

theorem lead5_fields (a : BitVec 2) :
    leadClass tables (0b111110#6 ++ a) = some 4 ∧ BitVec.setWidth 2 (0b111110#6 ++ a) = a ∧
      leadPayload tables 4 (0b111110#6 ++ a) = a.setWidth 32 := by
  revert a; decide

theorem lead6_fields (a : BitVec 1) :
    leadClass tables (0b1111110#7 ++ a) = some 5 ∧ BitVec.setWidth 1 (0b1111110#7 ++ a) = a ∧
      leadPayload tables 5 (0b1111110#7 ++ a) = a.setWidth 32 := by
  revert a; decide

/-- One step of `takeCont` over a continuation byte. -/
@[simp] theorem takeCont_contByte (g : BitVec 6) (rest : List Byte) :
    takeCont tables (contByte g :: rest) = .ok (g, rest) := by
  simp [takeCont, isCont_contByte, contByte_payload]

/-- `class_of(v)` by ranges, for any ceilings (40_encoder.md R121): the class is the first that holds `v`. -/
theorem classOf_eq_some {cfg : Config} {v : CodePoint} {n : Fin 6} (h : classOf cfg v = some n) :
    v ≤ cfg.ceil[n] ∧ ∀ m : Fin 6, m < n → cfg.ceil[m] < v := by
  unfold classOf at h
  split_ifs at h <;> cases h <;> refine ⟨by assumption, fun m hm => ?_⟩ <;>
    (fin_cases m <;> simp_all [Fin.lt_def])

/-- `TOOLARGE` is above every ceiling. -/
theorem classOf_eq_none {cfg : Config} {v : CodePoint} : classOf cfg v = none ↔ ∀ n : Fin 6, cfg.ceil[n] < v := by
  unfold classOf
  constructor
  · intro h
    split_ifs at h
    intro n; fin_cases n <;> simp_all
  · intro h
    have h0 : ¬ v ≤ cfg.ceil[0] := BitVec.not_le.2 (h 0)
    have h1 : ¬ v ≤ cfg.ceil[1] := BitVec.not_le.2 (h 1)
    have h2 : ¬ v ≤ cfg.ceil[2] := BitVec.not_le.2 (h 2)
    have h3 : ¬ v ≤ cfg.ceil[3] := BitVec.not_le.2 (h 3)
    have h4 : ¬ v ≤ cfg.ceil[4] := BitVec.not_le.2 (h 4)
    have h5 : ¬ v ≤ cfg.ceil[5] := BitVec.not_le.2 (h 5)
    rw [if_neg h0, if_neg h1, if_neg h2, if_neg h3, if_neg h4, if_neg h5]

/-- `class_of(v)` by ranges, on the tables of this hardware (30_encoding.md R85). -/
theorem classOf_tables (v : CodePoint) :
    classOf tables v =
      if v ≤ 0x7F#32 then some 0 else if v ≤ 0x7FF#32 then some 1 else if v ≤ 0xFFFF#32 then some 2
      else if v ≤ 0x1FFFFF#32 then some 3 else if v ≤ 0x3FFFFFF#32 then some 4
      else if v ≤ 0x7FFFFFFF#32 then some 5 else none := rfl

theorem leadByteOf_tables (n : Fin 6) (v : BitVec 32) :
    leadByteOf tables n v = (v >>> (6 * n.val)).setWidth 8 ||| tables.leadMark[n] := rfl

theorem contByteOf_tables (n : Fin 6) (v : BitVec 32) (i : Nat) :
    contByteOf tables n v i = ((v >>> ((n.val - i - 1) * 6)).setWidth 8 &&& 0x3F#8) ||| 0x80#8 := rfl

theorem accumulate_tables (acc : BitVec 32) (b : BitVec 8) :
    accumulate tables acc b = (acc <<< 6) ||| (b &&& 0x3F#8).setWidth 32 := rfl

/-- A continuation byte adds its six bits below those assembled so far (30_encoding.md R84). -/
theorem accumulate_contByte (acc : BitVec 32) (g : BitVec 6) :
    accumulate tables acc (contByte g) = (acc <<< 6) ||| g.setWidth 32 := by
  have h : ∀ g : BitVec 6, (contByte g &&& 0x3F#8).setWidth 32 = g.setWidth 32 := by decide
  rw [accumulate_tables, h]

/-- The bytes of a symbol, listed (40_encoder.md R132). -/
theorem encSym_class0 (cfg : Config) (v : CodePoint) : encSym cfg 0 v = [leadByteOf cfg 0 v] := rfl

theorem encSym_class1 (cfg : Config) (v : CodePoint) :
    encSym cfg 1 v = [leadByteOf cfg 1 v, contByteOf cfg 1 v 0] := rfl

theorem encSym_class2 (cfg : Config) (v : CodePoint) :
    encSym cfg 2 v = [leadByteOf cfg 2 v, contByteOf cfg 2 v 0, contByteOf cfg 2 v 1] := rfl

theorem encSym_class3 (cfg : Config) (v : CodePoint) :
    encSym cfg 3 v = [leadByteOf cfg 3 v, contByteOf cfg 3 v 0, contByteOf cfg 3 v 1, contByteOf cfg 3 v 2] :=
  rfl

theorem encSym_class4 (cfg : Config) (v : CodePoint) :
    encSym cfg 4 v = [leadByteOf cfg 4 v, contByteOf cfg 4 v 0, contByteOf cfg 4 v 1, contByteOf cfg 4 v 2,
      contByteOf cfg 4 v 3] := rfl

theorem encSym_class5 (cfg : Config) (v : CodePoint) :
    encSym cfg 5 v = [leadByteOf cfg 5 v, contByteOf cfg 5 v 0, contByteOf cfg 5 v 1, contByteOf cfg 5 v 2,
      contByteOf cfg 5 v 3, contByteOf cfg 5 v 4] := rfl

end Sys2Proof
end

