-- ==== Sys2Proof/Laws/Layout.lean ====
section
/-! SUPPORT. The bytes the encoder emits, as marker above payload, and the bytes a symbol is read from. -/

namespace Sys2Proof

open Machine

/-- A field above six bits, zero-extended, is that field shifted up with the six bits below it. -/
theorem setWidth_append_six {w : Nat} (a : BitVec w) (g : BitVec 6) :
    (a ++ g).setWidth 32 = (a.setWidth 32 <<< 6) ||| g.setWidth 32 := by
  ext i hi
  simp only [BitVec.getElem_or, BitVec.getElem_shiftLeft, BitVec.getElem_setWidth, BitVec.getLsbD_append]
  by_cases h : i < 6 <;> simp [h]
  intro hg; rw [BitVec.getLsbD_of_ge g i (by omega)] at hg; cases hg

/-- The value of a field above six bits. -/
theorem toNat_append_six {w : Nat} (a : BitVec w) (g : BitVec 6) :
    (a ++ g).toNat = a.toNat * 64 + g.toNat := by
  rw [BitVec.toNat_append, ← Nat.shiftLeft_add_eq_or_of_lt g.isLt, Nat.shiftLeft_eq]

/-- A continuation byte is the marker `10` above six bits of the code point (40_encoder.md R132). -/
theorem contByteOf_eq_contByte (n : Fin 6) (v : BitVec 32) (i : Nat) :
    contByteOf tables n v i = contByte ((v >>> ((n.val - i - 1) * 6)).setWidth 6) := by
  have h : ∀ x : BitVec 8, (x &&& 0x3F#8) ||| 0x80#8 = contByte (x.setWidth 6) := by decide
  rw [contByteOf_tables, h, BitVec.setWidth_setWidth_of_le _ (by decide)]

/-- The lead byte of a code point of its class is the class's marker above the top bits of the code point
(40_encoder.md R132, 30_encoding.md R82). -/
theorem leadByteOf_class0 {v : BitVec 32} (h : v ≤ 0x7F#32) : leadByteOf tables 0 v = 0b0#1 ++ v.setWidth 7 := by
  have hx : ∀ x : BitVec 8, x.toNat < 128 → x ||| 0x00#8 = 0b0#1 ++ x.setWidth 7 := by decide
  have hv : v.toNat ≤ 127 := by simpa [BitVec.le_def] using h
  have e := hx (v.setWidth 8) (by simp; omega)
  rw [BitVec.setWidth_setWidth_of_le _ (by decide)] at e
  exact e

theorem leadByteOf_class1 {v : BitVec 32} (h : v ≤ 0x7FF#32) :
    leadByteOf tables 1 v = 0b110#3 ++ (v >>> 6).setWidth 5 := by
  have hx : ∀ x : BitVec 8, x.toNat < 32 → x ||| 0xC0#8 = 0b110#3 ++ x.setWidth 5 := by decide
  have hv : v.toNat ≤ 0x7FF := by simpa [BitVec.le_def] using h
  have e := hx ((v >>> 6).setWidth 8) (by simp [Nat.shiftRight_eq_div_pow]; omega)
  rw [BitVec.setWidth_setWidth_of_le _ (by decide)] at e
  exact e

theorem leadByteOf_class2 {v : BitVec 32} (h : v ≤ 0xFFFF#32) :
    leadByteOf tables 2 v = 0b1110#4 ++ (v >>> 12).setWidth 4 := by
  have hx : ∀ x : BitVec 8, x.toNat < 16 → x ||| 0xE0#8 = 0b1110#4 ++ x.setWidth 4 := by decide
  have hv : v.toNat ≤ 0xFFFF := by simpa [BitVec.le_def] using h
  have e := hx ((v >>> 12).setWidth 8) (by simp [Nat.shiftRight_eq_div_pow]; omega)
  rw [BitVec.setWidth_setWidth_of_le _ (by decide)] at e
  exact e

theorem leadByteOf_class3 {v : BitVec 32} (h : v ≤ 0x1FFFFF#32) :
    leadByteOf tables 3 v = 0b11110#5 ++ (v >>> 18).setWidth 3 := by
  have hx : ∀ x : BitVec 8, x.toNat < 8 → x ||| 0xF0#8 = 0b11110#5 ++ x.setWidth 3 := by decide
  have hv : v.toNat ≤ 0x1FFFFF := by simpa [BitVec.le_def] using h
  have e := hx ((v >>> 18).setWidth 8) (by simp [Nat.shiftRight_eq_div_pow]; omega)
  rw [BitVec.setWidth_setWidth_of_le _ (by decide)] at e
  exact e

theorem leadByteOf_class4 {v : BitVec 32} (h : v ≤ 0x3FFFFFF#32) :
    leadByteOf tables 4 v = 0b111110#6 ++ (v >>> 24).setWidth 2 := by
  have hx : ∀ x : BitVec 8, x.toNat < 4 → x ||| 0xF8#8 = 0b111110#6 ++ x.setWidth 2 := by decide
  have hv : v.toNat ≤ 0x3FFFFFF := by simpa [BitVec.le_def] using h
  have e := hx ((v >>> 24).setWidth 8) (by simp [Nat.shiftRight_eq_div_pow]; omega)
  rw [BitVec.setWidth_setWidth_of_le _ (by decide)] at e
  exact e

theorem leadByteOf_class5 {v : BitVec 32} (h : v ≤ 0x7FFFFFFF#32) :
    leadByteOf tables 5 v = 0b1111110#7 ++ (v >>> 30).setWidth 1 := by
  have hx : ∀ x : BitVec 8, x.toNat < 2 → x ||| 0xFC#8 = 0b1111110#7 ++ x.setWidth 1 := by decide
  have hv : v.toNat ≤ 0x7FFFFFFF := by simpa [BitVec.le_def] using h
  have e := hx ((v >>> 30).setWidth 8) (by simp [Nat.shiftRight_eq_div_pow]; omega)
  rw [BitVec.setWidth_setWidth_of_le _ (by decide)] at e
  exact e

/-- The instruction whose fields are the bits of a code point, for each class (30_encoding.md R84). -/
def symbolOf (n : Fin 6) (v : CodePoint) : Instr :=
  if n = 0 then .seq1 (v.setWidth 7)
  else if n = 1 then .seq2 ((v >>> 6).setWidth 5) (v.setWidth 6)
  else if n = 2 then .seq3 ((v >>> 12).setWidth 4) ((v >>> 6).setWidth 6) (v.setWidth 6)
  else if n = 3 then .seq4 ((v >>> 18).setWidth 3) ((v >>> 12).setWidth 6) ((v >>> 6).setWidth 6) (v.setWidth 6)
  else if n = 4 then
    .seq5 ((v >>> 24).setWidth 2) ((v >>> 18).setWidth 6) ((v >>> 12).setWidth 6) ((v >>> 6).setWidth 6)
      (v.setWidth 6)
  else
    .seq6 ((v >>> 30).setWidth 1) ((v >>> 24).setWidth 6) ((v >>> 18).setWidth 6) ((v >>> 12).setWidth 6)
      ((v >>> 6).setWidth 6) (v.setWidth 6)

/-- The symbol of a code point's class has the bytes the encoder emits. -/
theorem symbolBytes_symbolOf {n : Fin 6} {v : CodePoint} (h : v ≤ tables.ceil[n]) :
    symbolBytes (symbolOf n v) = encSym tables n v := by
  change BitVec 32 at v
  rcases class_cases n with rfl | rfl | rfl | rfl | rfl | rfl
  · rw [encSym_class0, leadByteOf_class0 h]; rfl
  · rw [encSym_class1, leadByteOf_class1 h, contByteOf_eq_contByte]; simp [symbolOf, symbolBytes]
  · rw [encSym_class2, leadByteOf_class2 h]; simp [contByteOf_eq_contByte, symbolOf, symbolBytes]
  · rw [encSym_class3, leadByteOf_class3 h]; simp [contByteOf_eq_contByte, symbolOf, symbolBytes]
  · rw [encSym_class4, leadByteOf_class4 h]; simp [contByteOf_eq_contByte, symbolOf, symbolBytes]
  · rw [encSym_class5, leadByteOf_class5 h]; simp [contByteOf_eq_contByte, symbolOf, symbolBytes]

/-- The symbol of a code point's class carries the code point. -/
theorem symbolCodePoint_symbolOf {n : Fin 6} {v : CodePoint} (h : v ≤ tables.ceil[n]) :
    symbolCodePoint (symbolOf n v) = v := by
  change BitVec 32 at v
  have hv : v.toNat ≤ (tables.ceil[n]).toNat := h
  apply BitVec.eq_of_toNat_eq
  rcases class_cases n with rfl | rfl | rfl | rfl | rfl | rfl <;>
    simp [tables] at hv <;>
    simp [symbolOf, symbolCodePoint, toNat_append_six, Nat.shiftRight_eq_div_pow] <;> omega

/-- `takeCont` takes exactly the continuation byte whose payload it gives. -/
theorem takeCont_ok {l r : List Byte} {g : BitVec 6} (h : takeCont tables l = .ok (g, r)) :
    l = contByte g :: r := by
  unfold takeCont at h
  split at h
  · cases h
  · split at h
    · rename_i hc; cases h; rw [contByte_of_isCont hc]
    · cases h

/-- A lead byte is its class's marker above its own payload bits (30_encoding.md R82). -/
theorem lead_of_class {b : Byte} {n : Fin 6} (h : leadClass tables b = some n) :
    (n = 0 → 0b0#1 ++ b.setWidth 7 = b) ∧ (n = 1 → 0b110#3 ++ b.setWidth 5 = b) ∧
      (n = 2 → 0b1110#4 ++ b.setWidth 4 = b) ∧ (n = 3 → 0b11110#5 ++ b.setWidth 3 = b) ∧
      (n = 4 → 0b111110#6 ++ b.setWidth 2 = b) ∧ (n = 5 → 0b1111110#7 ++ b.setWidth 1 = b) := by
  revert b n; decide

/-- Both halves of a computation that gave a value. -/
theorem except_bind_ok {α β : Type} {x : Except ErrorRecord α} {f : α → Except ErrorRecord β} {r : β}
    (h : (x >>= f) = .ok r) : ∃ a, x = .ok a ∧ f a = .ok r := by
  cases x with
  | error e => cases h
  | ok a => exact ⟨a, rfl, h⟩

/-- The symbol read from a byte sequence has the bytes it was read from. -/
theorem decodeSymbol_ok {l r : List Byte} {i : Instr} (h : decodeSymbol tables l = .ok (i, r)) :
    l = symbolBytes i ++ r ∧ symbolBytes i ≠ [] := by
  cases l with
  | nil => cases h
  | cons b l =>
    simp only [decodeSymbol] at h
    split at h
    · cases h
    all_goals
      rename_i hc
      have hl := lead_of_class hc
    · cases h; simp [symbolBytes, hl]
    · obtain ⟨⟨g1, r1⟩, h1, h⟩ := except_bind_ok h
      cases h
      obtain rfl := takeCont_ok h1
      simp [symbolBytes, hl]
    · obtain ⟨⟨g1, r1⟩, h1, h⟩ := except_bind_ok h
      obtain ⟨⟨g2, r2⟩, h2, h⟩ := except_bind_ok h
      cases h
      obtain rfl := takeCont_ok h1
      obtain rfl : r1 = _ := takeCont_ok h2
      simp [symbolBytes, hl]
    · obtain ⟨⟨g1, r1⟩, h1, h⟩ := except_bind_ok h
      obtain ⟨⟨g2, r2⟩, h2, h⟩ := except_bind_ok h
      obtain ⟨⟨g3, r3⟩, h3, h⟩ := except_bind_ok h
      cases h
      obtain rfl := takeCont_ok h1
      obtain rfl : r1 = _ := takeCont_ok h2
      obtain rfl : r2 = _ := takeCont_ok h3
      simp [symbolBytes, hl]
    · obtain ⟨⟨g1, r1⟩, h1, h⟩ := except_bind_ok h
      obtain ⟨⟨g2, r2⟩, h2, h⟩ := except_bind_ok h
      obtain ⟨⟨g3, r3⟩, h3, h⟩ := except_bind_ok h
      obtain ⟨⟨g4, r4⟩, h4, h⟩ := except_bind_ok h
      cases h
      obtain rfl := takeCont_ok h1
      obtain rfl : r1 = _ := takeCont_ok h2
      obtain rfl : r2 = _ := takeCont_ok h3
      obtain rfl : r3 = _ := takeCont_ok h4
      simp [symbolBytes, hl]
    · obtain ⟨⟨g1, r1⟩, h1, h⟩ := except_bind_ok h
      obtain ⟨⟨g2, r2⟩, h2, h⟩ := except_bind_ok h
      obtain ⟨⟨g3, r3⟩, h3, h⟩ := except_bind_ok h
      obtain ⟨⟨g4, r4⟩, h4, h⟩ := except_bind_ok h
      obtain ⟨⟨g5, r5⟩, h5, h⟩ := except_bind_ok h
      cases h
      obtain rfl := takeCont_ok h1
      obtain rfl : r1 = _ := takeCont_ok h2
      obtain rfl : r2 = _ := takeCont_ok h3
      obtain rfl : r3 = _ := takeCont_ok h4
      obtain rfl : r4 = _ := takeCont_ok h5
      simp [symbolBytes, hl]

/-- A symbol's own bytes are read as that symbol. -/
theorem decodeSymbol_symbolBytes (i : Instr) (rest : List Byte) (h : symbolBytes i ≠ []) :
    decodeSymbol tables (symbolBytes i ++ rest) = .ok (i, rest) := by
  cases i
  case seq1 a => simp [symbolBytes, decodeSymbol, lead1_fields]
  case seq2 a b => simp [symbolBytes, decodeSymbol, lead2_fields, bind, Except.bind, pure, Except.pure]
  case seq3 a b c => simp [symbolBytes, decodeSymbol, lead3_fields, bind, Except.bind, pure, Except.pure]
  case seq4 a b c d => simp [symbolBytes, decodeSymbol, lead4_fields, bind, Except.bind, pure, Except.pure]
  case seq5 a b c d e => simp [symbolBytes, decodeSymbol, lead5_fields, bind, Except.bind, pure, Except.pure]
  case seq6 a b c d e f => simp [symbolBytes, decodeSymbol, lead6_fields, bind, Except.bind, pure, Except.pure]
  all_goals exact absurd rfl h

end Sys2Proof
end

