-- ==== Sys2Proof/Laws/Functions.lean ====
section
/-! SUPPORT. The function level: one equation per constructor of the input, and the reading of output streams. -/

namespace Sys2Proof.Machine

@[simp] theorem encodeSeq_nil (cfg : Config) : encodeSeq cfg [] = .ok [] := rfl

theorem encodeSeq_cons_error {cfg : Config} {v : CodePoint} {e : ErrorRecord} (h : encodeOne cfg v = .error e)
    (rest : List CodePoint) : encodeSeq cfg (v :: rest) = .error e := by
  simp only [encodeSeq, h]

theorem encodeSeq_cons_ok {cfg : Config} {v : CodePoint} {bs : List Byte} (h : encodeOne cfg v = .ok bs)
    (rest : List CodePoint) : encodeSeq cfg (v :: rest) = (encodeSeq cfg rest).map (bs ++ ·) := by
  simp only [encodeSeq, h]
  cases encodeSeq cfg rest <;> rfl

theorem encodeOne_of_class {cfg : Config} {v : CodePoint} {n : Fin 6} (h : classOf cfg v = some n) :
    encodeOne cfg v = .ok (encSym cfg n v) := by
  simp only [encodeOne, h]

theorem encodeOne_of_tooLarge {cfg : Config} {v : CodePoint} (h : classOf cfg v = none) :
    encodeOne cfg v = .error (.codePointTooLarge v cfg.maxCp) := by
  simp only [encodeOne, h]

@[simp] theorem encSym_length (cfg : Config) (n : Fin 6) (v : CodePoint) : (encSym cfg n v).length = n.val + 1 := by
  simp [encSym]

/-- What the continuation bytes of a symbol leave is a tail of what they were taken from, `k` bytes shorter. -/
theorem decodeConts_ok {cfg : Config} {k : Nat} {acc v : CodePoint} {bytes after : List Byte}
    (h : decodeConts cfg k acc bytes = .ok (v, after)) : ∃ cs, cs.length = k ∧ bytes = cs ++ after := by
  induction k generalizing acc bytes with
  | zero => cases h; exact ⟨[], rfl, rfl⟩
  | succ k ih =>
    cases bytes with
    | nil => cases h
    | cons c rest =>
      unfold decodeConts at h
      split at h
      · obtain ⟨cs, hl, rfl⟩ := ih h
        exact ⟨c :: cs, by simp [hl], rfl⟩
      · cases h

/-- `decode_one` consumes at least one byte and leaves a tail. -/
theorem decodeOne_ok {cfg : Config} {v : CodePoint} {bytes after : List Byte}
    (h : decodeOne cfg bytes = .ok (v, after)) : ∃ sym, sym ≠ [] ∧ bytes = sym ++ after := by
  cases bytes with
  | nil => cases h
  | cons b rest =>
    simp only [decodeOne] at h
    split at h
    · cases h
    · obtain ⟨cs, -, rfl⟩ := decodeConts_ok h
      exact ⟨b :: cs, by simp, rfl⟩

/-- Fuel of at least the length gives the same as the length. -/
theorem decodeLoop_fuel (cfg : Config) (fuel : Nat) (bytes : List Byte) (h : bytes.length ≤ fuel) :
    decodeLoop cfg fuel bytes = decodeSeq cfg bytes := by
  induction fuel using Nat.strong_induction_on generalizing bytes with
  | _ fuel ih =>
    cases bytes with
    | nil => simp [decodeSeq, decodeLoop]
    | cons b rest =>
      obtain ⟨fuel, rfl⟩ : ∃ f, fuel = f + 1 := ⟨fuel - 1, by simp at h; omega⟩
      simp only [decodeSeq, decodeLoop, List.length_cons]
      cases ho : decodeOne cfg (b :: rest) with
      | error e => rfl
      | ok p =>
        obtain ⟨v, after⟩ := p
        obtain ⟨sym, hs, heq⟩ := decodeOne_ok ho
        have hlen := congrArg List.length heq
        have hpos := List.length_pos_of_ne_nil hs
        simp only [List.length_cons, List.length_append] at hlen h
        have hl : after.length ≤ rest.length := by omega
        simp only [ih fuel (by omega) after (by omega), ih rest.length (by omega) after hl]

@[simp] theorem decodeSeq_nil (cfg : Config) : decodeSeq cfg [] = .ok [] := rfl

theorem decodeSeq_error {cfg : Config} {b : Byte} {rest : List Byte} {e : ErrorRecord}
    (h : decodeOne cfg (b :: rest) = .error e) : decodeSeq cfg (b :: rest) = .error e := by
  simp only [decodeSeq, List.length_cons, decodeLoop, h]

theorem decodeSeq_ok {cfg : Config} {b : Byte} {rest after : List Byte} {v : CodePoint}
    (h : decodeOne cfg (b :: rest) = .ok (v, after)) :
    decodeSeq cfg (b :: rest) = (decodeSeq cfg after).map (v :: ·) := by
  obtain ⟨sym, hs, heq⟩ := decodeOne_ok h
  have hlen := congrArg List.length heq
  have hpos := List.length_pos_of_ne_nil hs
  simp only [List.length_cons, List.length_append] at hlen
  simp only [decodeSeq, List.length_cons, decodeLoop, h]
  rw [decodeLoop_fuel cfg rest.length after (by omega)]
  simp only [decodeSeq]
  cases decodeLoop cfg after.length after <;> rfl

/-- Data elements are collected for the next `DONE`. -/
theorem resultsFrom_data {α : Type} (acc xs : List α) (rest : List (OutElem α)) :
    resultsFrom acc (xs.map .data ++ rest) = resultsFrom (acc ++ xs) rest := by
  induction xs generalizing acc with
  | nil => simp
  | cons x xs ih => simp [resultsFrom, ih]

/-- The payload of a lead byte by its class (41_decoder.md R151 to R156). -/
theorem leadPayload_of_class {b : Byte} {n : Fin 6} (h : leadClass tables b = some n) :
    leadPayload tables n b =
      if n = 0 then (b.setWidth 7).setWidth 32 else if n = 1 then (b.setWidth 5).setWidth 32
      else if n = 2 then (b.setWidth 4).setWidth 32 else if n = 3 then (b.setWidth 3).setWidth 32
      else if n = 4 then (b.setWidth 2).setWidth 32 else (b.setWidth 1).setWidth 32 := by
  revert b n; decide

/-- One turn of step 4 of `decode_one` is one `takeCont`. -/
theorem decodeConts_succ (k : Nat) (acc : CodePoint) (l : List Byte) :
    decodeConts tables (k + 1) acc l =
      (takeCont tables l).bind (fun p => decodeConts tables k ((acc <<< 6) ||| p.1.setWidth 32) p.2) := by
  cases l with
  | nil => rfl
  | cons c rest =>
    cases h : isCont tables c
    · simp [decodeConts, takeCont, h, Except.bind]
    · simp only [decodeConts, takeCont, h, if_true, Except.bind]
      rw [← accumulate_contByte, contByte_of_isCont h]

/-- `decode_one` reads the symbol the bytes begin with and gives its code point (42_transactions.md R194,
30_encoding.md R84). -/
theorem decodeOne_eq_decodeSymbol (l : List Byte) :
    decodeOne tables l = (decodeSymbol tables l).map (fun p => (symbolCodePoint p.1, p.2)) := by
  cases l with
  | nil => rfl
  | cons b rest =>
    simp only [decodeOne, decodeSymbol]
    cases h : leadClass tables b with
    | none => rfl
    | some n =>
      simp only
      rw [leadPayload_of_class h]
      rcases class_cases n with rfl | rfl | rfl | rfl | rfl | rfl
      · rfl
      · rw [show (1 : Fin 6).val = 0 + 1 from rfl]
        simp only [decodeConts_succ, Fin.reduceEq, if_false, if_true]
        rcases takeCont tables rest with e | ⟨g1, r1⟩
        · rfl
        simp [Except.bind, decodeConts, bind, Except.map, pure, Except.pure, symbolCodePoint,
          setWidth_append_six]
      · rw [show (2 : Fin 6).val = 0 + 1 + 1 from rfl]
        simp only [decodeConts_succ, Fin.reduceEq, if_false, if_true]
        rcases takeCont tables rest with e | ⟨g1, r1⟩
        · rfl
        dsimp only [Except.bind, bind]
        rcases takeCont tables r1 with e | ⟨g2, r2⟩
        · rfl
        simp [decodeConts, Except.map, pure, Except.pure, symbolCodePoint, setWidth_append_six]
      · rw [show (3 : Fin 6).val = 0 + 1 + 1 + 1 from rfl]
        simp only [decodeConts_succ, Fin.reduceEq, if_false, if_true]
        rcases takeCont tables rest with e | ⟨g1, r1⟩
        · rfl
        dsimp only [Except.bind, bind]
        rcases takeCont tables r1 with e | ⟨g2, r2⟩
        · rfl
        dsimp only [Except.bind, bind]
        rcases takeCont tables r2 with e | ⟨g3, r3⟩
        · rfl
        simp [decodeConts, Except.map, pure, Except.pure, symbolCodePoint, setWidth_append_six]
      · rw [show (4 : Fin 6).val = 0 + 1 + 1 + 1 + 1 from rfl]
        simp only [decodeConts_succ, Fin.reduceEq, if_false, if_true]
        rcases takeCont tables rest with e | ⟨g1, r1⟩
        · rfl
        dsimp only [Except.bind, bind]
        rcases takeCont tables r1 with e | ⟨g2, r2⟩
        · rfl
        dsimp only [Except.bind, bind]
        rcases takeCont tables r2 with e | ⟨g3, r3⟩
        · rfl
        dsimp only [Except.bind, bind]
        rcases takeCont tables r3 with e | ⟨g4, r4⟩
        · rfl
        simp [decodeConts, Except.map, pure, Except.pure, symbolCodePoint, setWidth_append_six]
      · rw [show (5 : Fin 6).val = 0 + 1 + 1 + 1 + 1 + 1 from rfl]
        simp only [decodeConts_succ, Fin.reduceEq, if_false]
        rcases takeCont tables rest with e | ⟨g1, r1⟩
        · rfl
        dsimp only [Except.bind, bind]
        rcases takeCont tables r1 with e | ⟨g2, r2⟩
        · rfl
        dsimp only [Except.bind, bind]
        rcases takeCont tables r2 with e | ⟨g3, r3⟩
        · rfl
        dsimp only [Except.bind, bind]
        rcases takeCont tables r3 with e | ⟨g4, r4⟩
        · rfl
        dsimp only [Except.bind, bind]
        rcases takeCont tables r4 with e | ⟨g5, r5⟩
        · rfl
        simp [decodeConts, Except.map, pure, Except.pure, symbolCodePoint, setWidth_append_six]

/-- A symbol is the one of some class whose ceiling its code point keeps: its bytes are what the encoder's layout
writes for that class, which need not be the code point's own (30_encoding.md R91). -/
theorem symbolBytes_class (i : Instr) (h : symbolBytes i ≠ []) :
    ∃ n : Fin 6, symbolCodePoint i ≤ tables.ceil[n] ∧ (symbolBytes i).length = n.val + 1 ∧
      symbolBytes i = encSym tables n (symbolCodePoint i) := by
  have key : ∀ n : Fin 6, symbolCodePoint i ≤ tables.ceil[n] → symbolOf n (symbolCodePoint i) = i →
      ∃ n : Fin 6, symbolCodePoint i ≤ tables.ceil[n] ∧ (symbolBytes i).length = n.val + 1 ∧
        symbolBytes i = encSym tables n (symbolCodePoint i) := by
    intro n h1 h2
    have hb := symbolBytes_symbolOf h1
    rw [h2] at hb
    exact ⟨n, h1, by rw [hb, encSym_length], hb⟩
  cases i
  case seq1 a =>
    apply key 0
    · have := a.isLt; simp [symbolCodePoint, BitVec.le_def, tables]; omega
    · simp [symbolOf, symbolCodePoint]
  case seq2 a b =>
    have := a.isLt; have := b.isLt
    apply key 1
    · simp [symbolCodePoint, BitVec.le_def, tables, toNat_append_six]; omega
    · simp only [symbolOf, symbolCodePoint, Fin.reduceEq, if_false, if_true]
      congr 1 <;> apply BitVec.eq_of_toNat_eq <;>
        simp [toNat_append_six, Nat.shiftRight_eq_div_pow] <;> omega
  case seq3 a b c =>
    have := a.isLt; have := b.isLt; have := c.isLt
    apply key 2
    · simp [symbolCodePoint, BitVec.le_def, tables, toNat_append_six]; omega
    · simp only [symbolOf, symbolCodePoint, Fin.reduceEq, if_false, if_true]
      congr 1 <;> apply BitVec.eq_of_toNat_eq <;>
        simp [toNat_append_six, Nat.shiftRight_eq_div_pow] <;> omega
  case seq4 a b c d =>
    have := a.isLt; have := b.isLt; have := c.isLt; have := d.isLt
    apply key 3
    · simp [symbolCodePoint, BitVec.le_def, tables, toNat_append_six]; omega
    · simp only [symbolOf, symbolCodePoint, Fin.reduceEq, if_false, if_true]
      congr 1 <;> apply BitVec.eq_of_toNat_eq <;>
        simp [toNat_append_six, Nat.shiftRight_eq_div_pow] <;> omega
  case seq5 a b c d e =>
    have := a.isLt; have := b.isLt; have := c.isLt; have := d.isLt; have := e.isLt
    apply key 4
    · simp [symbolCodePoint, BitVec.le_def, tables, toNat_append_six]; omega
    · simp only [symbolOf, symbolCodePoint, Fin.reduceEq, if_false, if_true]
      congr 1 <;> apply BitVec.eq_of_toNat_eq <;>
        simp [toNat_append_six, Nat.shiftRight_eq_div_pow] <;> omega
  case seq6 a b c d e f =>
    have := a.isLt; have := b.isLt; have := c.isLt; have := d.isLt; have := e.isLt; have := f.isLt
    apply key 5
    · simp [symbolCodePoint, BitVec.le_def, tables, toNat_append_six]; omega
    · simp only [symbolOf, symbolCodePoint, Fin.reduceEq, if_false]
      congr 1 <;> apply BitVec.eq_of_toNat_eq <;>
        simp [toNat_append_six, Nat.shiftRight_eq_div_pow] <;> omega
  all_goals exact absurd rfl h

/-- A code point that a class holds has a class, and it is no later one (40_encoder.md R121). -/
theorem classOf_le {v : CodePoint} {n : Fin 6} (h : v ≤ tables.ceil[n]) :
    ∃ m, classOf tables v = some m ∧ m ≤ n := by
  cases hc : classOf tables v with
  | none => exact absurd h (BitVec.not_le.2 (classOf_eq_none.1 hc n))
  | some m =>
    refine ⟨m, rfl, ?_⟩
    by_contra hlt
    exact absurd h (BitVec.not_le.2 ((classOf_eq_some hc).2 n (not_le.1 hlt)))

/-- Induction over the symbols of a sequence that decodes. -/
theorem decodeSeq_induction {P : List Byte → List CodePoint → Prop} (nil : P [] [])
    (cons : ∀ i B S, symbolBytes i ≠ [] → decodeSeq tables B = .ok S → P B S →
      P (symbolBytes i ++ B) (symbolCodePoint i :: S))
    {B : List Byte} {S : List CodePoint} (h : decodeSeq tables B = .ok S) : P B S := by
  generalize hk : B.length = k
  induction k using Nat.strong_induction_on generalizing B S with
  | _ k ih =>
    cases B with
    | nil => cases h; exact nil
    | cons b rest =>
      cases ho : decodeOne tables (b :: rest) with
      | error e => rw [decodeSeq_error ho] at h; cases h
      | ok p =>
        obtain ⟨v, after⟩ := p
        rw [decodeSeq_ok ho] at h
        cases ha : decodeSeq tables after with
        | error e => rw [ha] at h; cases h
        | ok S' =>
          rw [ha] at h; cases h
          rw [decodeOne_eq_decodeSymbol] at ho
          cases hd : decodeSymbol tables (b :: rest) with
          | error e => rw [hd] at ho; cases ho
          | ok q =>
            obtain ⟨i, r⟩ := q
            rw [hd] at ho; cases ho
            obtain ⟨heq, hne⟩ := decodeSymbol_ok hd
            have hl : r.length < k := by
              have := List.length_pos_of_ne_nil hne
              rw [← hk, heq, List.length_append]; omega
            rw [heq]
            exact cons i r S' hne ha (ih _ hl ha rfl)

/-- Decoding reads no ceiling: the printed value of `CEIL[3]` changes nothing in it (93_implementation_defined.md
U2). -/
theorem decodeConts_printed (k : Nat) (acc : CodePoint) (l : List Byte) :
    decodeConts printedTables k acc l = decodeConts tables k acc l := by
  induction k generalizing acc l with
  | zero => rfl
  | succ k ih =>
    cases l with
    | nil => rfl
    | cons c l => unfold decodeConts; rw [ih]; rfl

theorem decodeSeq_printed (bytes : List Byte) : decodeSeq printedTables bytes = decodeSeq tables bytes := by
  have h1 : ∀ l, decodeOne printedTables l = decodeOne tables l := by
    intro l
    cases l with
    | nil => rfl
    | cons b l => unfold decodeOne; simp only [decodeConts_printed]; rfl
  have h2 : ∀ k l, decodeLoop printedTables k l = decodeLoop tables k l := by
    intro k
    induction k with
    | zero => intro l; cases l <;> rfl
    | succ k ih => intro l; cases l <;> simp only [decodeLoop, h1, ih]
  exact h2 _ _

end Sys2Proof.Machine
end

