-- ==== Sys2Proof/Laws/State.lean ====
section
/-! SUPPORT. One lemma per field per update, for the operations of Machine/Ops.lean. -/

namespace Sys2Proof.Machine

section Fields

variable (s : State)

@[simp] theorem putEnc_enc (es : List (OutElem Byte)) :
    (putEnc es s).enc = s.enc := rfl

@[simp] theorem putEnc_dec (es : List (OutElem Byte)) :
    (putEnc es s).dec = s.dec := rfl

@[simp] theorem putEnc_encIn (es : List (OutElem Byte)) :
    (putEnc es s).encIn = s.encIn := rfl

@[simp] theorem putEnc_encOut (es : List (OutElem Byte)) :
    (putEnc es s).encOut = s.encOut ++ es := rfl

@[simp] theorem putEnc_decIn (es : List (OutElem Byte)) :
    (putEnc es s).decIn = s.decIn := rfl

@[simp] theorem putEnc_decOut (es : List (OutElem Byte)) :
    (putEnc es s).decOut = s.decOut := rfl

@[simp] theorem putEnc_sched (es : List (OutElem Byte)) :
    (putEnc es s).sched = s.sched := rfl

@[simp] theorem putDec_enc (es : List (OutElem CodePoint)) :
    (putDec es s).enc = s.enc := rfl

@[simp] theorem putDec_dec (es : List (OutElem CodePoint)) :
    (putDec es s).dec = s.dec := rfl

@[simp] theorem putDec_encIn (es : List (OutElem CodePoint)) :
    (putDec es s).encIn = s.encIn := rfl

@[simp] theorem putDec_encOut (es : List (OutElem CodePoint)) :
    (putDec es s).encOut = s.encOut := rfl

@[simp] theorem putDec_decIn (es : List (OutElem CodePoint)) :
    (putDec es s).decIn = s.decIn := rfl

@[simp] theorem putDec_decOut (es : List (OutElem CodePoint)) :
    (putDec es s).decOut = s.decOut ++ es := rfl

@[simp] theorem putDec_sched (es : List (OutElem CodePoint)) :
    (putDec es s).sched = s.sched := rfl

@[simp] theorem raise_enc_enc (e : ErrorRecord) :
    (raise .enc e s).enc = { st := .failed, err := e } := rfl

@[simp] theorem raise_enc_dec (e : ErrorRecord) :
    (raise .enc e s).dec = s.dec := rfl

@[simp] theorem raise_enc_encIn (e : ErrorRecord) :
    (raise .enc e s).encIn = s.encIn := rfl

@[simp] theorem raise_enc_encOut (e : ErrorRecord) :
    (raise .enc e s).encOut = s.encOut := rfl

@[simp] theorem raise_enc_decIn (e : ErrorRecord) :
    (raise .enc e s).decIn = s.decIn := rfl

@[simp] theorem raise_enc_decOut (e : ErrorRecord) :
    (raise .enc e s).decOut = s.decOut := rfl

@[simp] theorem raise_enc_sched (e : ErrorRecord) :
    (raise .enc e s).sched = s.sched := rfl

@[simp] theorem raise_dec_enc (e : ErrorRecord) :
    (raise .dec e s).enc = s.enc := rfl

@[simp] theorem raise_dec_dec (e : ErrorRecord) :
    (raise .dec e s).dec = { st := .failed, rem := 0, acc := 0, err := e } := rfl

@[simp] theorem raise_dec_encIn (e : ErrorRecord) :
    (raise .dec e s).encIn = s.encIn := rfl

@[simp] theorem raise_dec_encOut (e : ErrorRecord) :
    (raise .dec e s).encOut = s.encOut := rfl

@[simp] theorem raise_dec_decIn (e : ErrorRecord) :
    (raise .dec e s).decIn = s.decIn := rfl

@[simp] theorem raise_dec_decOut (e : ErrorRecord) :
    (raise .dec e s).decOut = s.decOut := rfl

@[simp] theorem raise_dec_sched (e : ErrorRecord) :
    (raise .dec e s).sched = s.sched := rfl

@[simp] theorem finish_enc_enc (r : DoneResult) :
    (finish .enc r s).enc = EncUnit.reset := rfl

@[simp] theorem finish_enc_dec (r : DoneResult) :
    (finish .enc r s).dec = s.dec := rfl

@[simp] theorem finish_enc_encIn (r : DoneResult) :
    (finish .enc r s).encIn = s.encIn := rfl

@[simp] theorem finish_enc_encOut (r : DoneResult) :
    (finish .enc r s).encOut = s.encOut ++ [.done r] := rfl

@[simp] theorem finish_enc_decIn (r : DoneResult) :
    (finish .enc r s).decIn = s.decIn := rfl

@[simp] theorem finish_enc_decOut (r : DoneResult) :
    (finish .enc r s).decOut = s.decOut := rfl

@[simp] theorem finish_enc_sched (r : DoneResult) :
    (finish .enc r s).sched = s.sched := rfl

@[simp] theorem finish_dec_enc (r : DoneResult) :
    (finish .dec r s).enc = s.enc := rfl

@[simp] theorem finish_dec_dec (r : DoneResult) :
    (finish .dec r s).dec = DecUnit.reset := rfl

@[simp] theorem finish_dec_encIn (r : DoneResult) :
    (finish .dec r s).encIn = s.encIn := rfl

@[simp] theorem finish_dec_encOut (r : DoneResult) :
    (finish .dec r s).encOut = s.encOut := rfl

@[simp] theorem finish_dec_decIn (r : DoneResult) :
    (finish .dec r s).decIn = s.decIn := rfl

@[simp] theorem finish_dec_decOut (r : DoneResult) :
    (finish .dec r s).decOut = s.decOut ++ [.done r] := rfl

@[simp] theorem finish_dec_sched (r : DoneResult) :
    (finish .dec r s).sched = s.sched := rfl

@[simp] theorem hostPutEnc_enc (e : InElem CodePoint) :
    (hostPutEnc e s).enc = s.enc := rfl

@[simp] theorem hostPutEnc_dec (e : InElem CodePoint) :
    (hostPutEnc e s).dec = s.dec := rfl

@[simp] theorem hostPutEnc_encIn (e : InElem CodePoint) :
    (hostPutEnc e s).encIn = s.encIn ++ [e] := rfl

@[simp] theorem hostPutEnc_encOut (e : InElem CodePoint) :
    (hostPutEnc e s).encOut = s.encOut := rfl

@[simp] theorem hostPutEnc_decIn (e : InElem CodePoint) :
    (hostPutEnc e s).decIn = s.decIn := rfl

@[simp] theorem hostPutEnc_decOut (e : InElem CodePoint) :
    (hostPutEnc e s).decOut = s.decOut := rfl

@[simp] theorem hostPutEnc_sched (e : InElem CodePoint) :
    (hostPutEnc e s).sched = s.sched := rfl

@[simp] theorem hostPutDec_enc (e : InElem Byte) :
    (hostPutDec e s).enc = s.enc := rfl

@[simp] theorem hostPutDec_dec (e : InElem Byte) :
    (hostPutDec e s).dec = s.dec := rfl

@[simp] theorem hostPutDec_encIn (e : InElem Byte) :
    (hostPutDec e s).encIn = s.encIn := rfl

@[simp] theorem hostPutDec_encOut (e : InElem Byte) :
    (hostPutDec e s).encOut = s.encOut := rfl

@[simp] theorem hostPutDec_decIn (e : InElem Byte) :
    (hostPutDec e s).decIn = s.decIn ++ [e] := rfl

@[simp] theorem hostPutDec_decOut (e : InElem Byte) :
    (hostPutDec e s).decOut = s.decOut := rfl

@[simp] theorem hostPutDec_sched (e : InElem Byte) :
    (hostPutDec e s).sched = s.sched := rfl

end Fields

@[simp] theorem putEnc_nil (s : State) : putEnc [] s = s := by simp [putEnc]

@[simp] theorem putDec_nil (s : State) : putDec [] s = s := by simp [putDec]

theorem putEnc_putEnc (xs ys : List (OutElem Byte)) (s : State) :
    putEnc ys (putEnc xs s) = putEnc (xs ++ ys) s := by simp [putEnc]

theorem putDec_putDec (xs ys : List (OutElem CodePoint)) (s : State) :
    putDec ys (putDec xs s) = putDec (xs ++ ys) s := by simp [putDec]

@[simp] theorem EncUnit.reset_st : EncUnit.reset.st = .run := rfl
@[simp] theorem EncUnit.reset_err : EncUnit.reset.err = .none := rfl
@[simp] theorem DecUnit.reset_st : DecUnit.reset.st = .awaitLead := rfl
@[simp] theorem DecUnit.reset_rem : DecUnit.reset.rem = 0 := rfl
@[simp] theorem DecUnit.reset_acc : DecUnit.reset.acc = 0 := rfl
@[simp] theorem DecUnit.reset_err : DecUnit.reset.err = .none := rfl

end Sys2Proof.Machine
end

