-- ==== Sys2Proof/Laws/Effect.lean ====
section
/-! SUPPORT. What a step can do, said once: a unit's step is the effect of the element it takes, and a step of the
machine is a step of the unit that was picked. -/

namespace Sys2Proof.Machine

@[simp] theorem selected_true (s' : State) : selected true s' = .next s' := rfl

@[simp] theorem selected_false (s' : State) : selected false s' = .refused .caseNotSelected := rfl

theorem selected_eq_next {c : Bool} {s' t : State} : selected c s' = .next t ↔ c = true ∧ s' = t := by
  cases c <;> simp

/-- What consuming an element of `ENC.in` does in any status (40_encoder.md R120). -/
def encEffect (e : InElem CodePoint) (s : State) : State :=
  match e, s.enc.st with
  | .endMark, _ => finish .enc (encResult s.enc) s
  | .data _, .failed => s
  | .data v, .run =>
    match classOf tables v with
    | some n => putEnc ((encSym tables n v).map .data) s
    | none => raise .enc (.codePointTooLarge v tables.maxCp) s

/-- The result an `END` gives the decoder's transaction (41_decoder.md R161, R162, R164). -/
def decResult (u : DecUnit) : DoneResult :=
  match u.st with
  | .awaitLead => .ok
  | .awaitCont => .err .unexpectedEnd
  | .failed => .err u.err

/-- What consuming an element of `DEC.in` does in any status (41_decoder.md R150, R170). -/
def decEffect (e : InElem Byte) (s : State) : State :=
  match e with
  | .endMark => finish .dec (decResult s.dec) s
  | .data b => consumeByte b s

theorem consumeByte_lead {b : Byte} {s : State} {n : Fin 6} (h : s.dec.st = .awaitLead)
    (hc : leadClass tables b = some n) : consumeByte b s = beginSymbol n b s := by
  simp only [consumeByte, h, hc]

theorem consumeByte_badLead {b : Byte} {s : State} (h : s.dec.st = .awaitLead)
    (hc : leadClass tables b = none) : consumeByte b s = raise .dec (.invalidLeadByte b) s := by
  simp only [consumeByte, h, hc]

theorem consumeByte_cont {b : Byte} {s : State} (h : s.dec.st = .awaitCont) (hc : isCont tables b = true) :
    consumeByte b s = continueSymbol b s := by
  simp only [consumeByte, h, hc, if_true]

theorem consumeByte_badCont {b : Byte} {s : State} (h : s.dec.st = .awaitCont)
    (hc : isCont tables b = false) : consumeByte b s = raise .dec (.invalidContinuationByte b) s := by
  simp [consumeByte, h, hc]

theorem consumeByte_failed {b : Byte} {s : State} (h : s.dec.st = .failed) : consumeByte b s = s := by
  simp only [consumeByte, h]

theorem consumeBytes_failed {bytes : List Byte} {s : State} (h : s.dec.st = .failed) :
    consumeBytes bytes s = s := by
  induction bytes with
  | nil => rfl
  | cons b rest ih => rw [consumeBytes, consumeByte_failed h, ih]

/-- The encoder's dispatch table selects the case whose meaning is the effect of the element. -/
theorem exec_decodeEnc (e : InElem CodePoint) (st : EncSt) (s : State) (h : s.enc.st = st) :
    exec (decodeEnc tables st e) s = .next (encEffect e s) := by
  subst h
  match e, hst : s.enc.st with
  | .endMark, .run => simp only [decodeEnc, exec, execEncEnd, encEffect]
  | .endMark, .failed => simp only [decodeEnc, exec, execEncEnd, encEffect]
  | .data v, .failed => simp [decodeEnc, exec, execEncDrain, encEffect, hst]
  | .data v, .run =>
    match hc : classOf tables v with
    | none => simp [decodeEnc, exec, execEncToolarge, encEffect, hst, hc]
    | some n =>
      rcases class_cases n with rfl | rfl | rfl | rfl | rfl | rfl <;>
        simp [decodeEnc, exec, execEnc1, execEnc2, execEnc3, execEnc4, execEnc5, execEnc6, encodeClass,
          encEffect, hst, hc]

/-- The decoder's dispatch table selects the case whose meaning is the effect of the element. -/
theorem exec_decodeDec (e : InElem Byte) (st : DecSt) (s : State) (h : s.dec.st = st) :
    exec (decodeDec tables st e) s = .next (decEffect e s) := by
  subst h
  match e, hst : s.dec.st with
  | .endMark, .awaitLead => simp [decodeDec, exec, execDecEndOk, decEffect, decResult, hst]
  | .endMark, .awaitCont => simp [decodeDec, exec, execDecEndTrunc, decEffect, decResult, hst]
  | .endMark, .failed => simp [decodeDec, exec, execDecEndFail, decEffect, decResult, hst]
  | .data b, .failed => simp [decodeDec, exec, execDecDrain, decEffect, consumeByte_failed hst, hst]
  | .data b, .awaitLead =>
    match hc : leadClass tables b with
    | none =>
      cases hk : isCont tables b
      · simp [decodeDec, exec, execDecBadleadFeff, badLead, decEffect, consumeByte_badLead hst hc, hst, hc, hk,
          patternFeff_of_neither hc hk]
      · simp [decodeDec, exec, execDecBadlead10, badLead, decEffect, consumeByte_badLead hst hc, hst, hc, hk]
    | some n =>
      rcases class_cases n with rfl | rfl | rfl | rfl | rfl | rfl <;>
        simp [decodeDec, exec, execDecLead1, execDecLead2, execDecLead3, execDecLead4, execDecLead5,
          execDecLead6, leadOfClass, decEffect, consumeByte_lead hst hc, hst, hc]
  | .data b, .awaitCont =>
    cases hk : isCont tables b
    · have hb := pattern0_eq_not_pattern11 hk
      cases h1 : pattern11 b <;>
        simp [decodeDec, exec, execDecBadcont0, execDecBadcont11, badCont, decEffect,
          consumeByte_badCont hst hk, hst, hk, hb, h1]
    · simp [decodeDec, exec, execDecCont, decEffect, consumeByte_cont hst hk, hst, hk]

/-- A step of the encoder is the effect of its head element on the state without it. -/
theorem stepUnit_enc (s : State) :
    stepUnit .enc s = .next (match s.encIn with
      | [] => s
      | e :: rest => encEffect e { s with encIn := rest }) := by
  unfold stepUnit fetch
  cases s.encIn with
  | nil => rfl
  | cons e rest => exact exec_decodeEnc e _ _ rfl

/-- A step of the decoder is the effect of its head element on the state without it. -/
theorem stepUnit_dec (s : State) :
    stepUnit .dec s = .next (match s.decIn with
      | [] => s
      | e :: rest => decEffect e { s with decIn := rest }) := by
  unfold stepUnit fetch
  cases s.decIn with
  | nil => rfl
  | cons e rest => exact exec_decodeDec e _ _ rfl

/-- Everything the choice of a unit can be. -/
theorem pick_cases (s : State) :
    (s.encIn = [] ∧ s.decIn = [] ∧ pick s = none) ∨
    (s.encIn ≠ [] ∧ ∃ c, pick s = some (.enc, { s with sched := c })) ∨
    (s.decIn ≠ [] ∧ ∃ c, pick s = some (.dec, { s with sched := c })) := by
  obtain ⟨enc, dec, encIn, encOut, decIn, decOut, sched⟩ := s
  cases encIn with
  | nil =>
    cases decIn with
    | nil => exact .inl ⟨rfl, rfl, rfl⟩
    | cons e r => exact .inr (.inr ⟨by simp, sched, rfl⟩)
  | cons e r =>
    cases decIn with
    | nil => exact .inr (.inl ⟨by simp, sched, rfl⟩)
    | cons e' r' =>
      cases hu : sched.turn
      · exact .inr (.inl ⟨by simp, sched.advance, by simp [pick, hu]⟩)
      · exact .inr (.inr ⟨by simp, sched.advance, by simp [pick, hu]⟩)

/-- Everything a step of the machine can be: nothing, or a step of one of the two units, the choice made. -/
theorem step_cases (s : State) :
    (s.encIn = [] ∧ s.decIn = [] ∧ step s = .next s) ∨
    (s.encIn ≠ [] ∧ ∃ c, step s = stepUnit .enc { s with sched := c }) ∨
    (s.decIn ≠ [] ∧ ∃ c, step s = stepUnit .dec { s with sched := c }) := by
  obtain ⟨he, hd, hp⟩ | ⟨he, c, hp⟩ | ⟨hd, c, hp⟩ := pick_cases s
  · exact .inl ⟨he, hd, by simp [step, hp]⟩
  · exact .inr (.inl ⟨he, c, by simp [step, hp]⟩)
  · exact .inr (.inr ⟨hd, c, by simp [step, hp]⟩)

/-- A run of no steps. -/
theorem run_zero (s : State) : core.run 0 s = .next s := rfl

/-- A run of one more step, where the step goes on. -/
theorem run_succ {s t : State} (k : Nat) (h : step s = .next t) : core.run (k + 1) s = core.run k t := by
  have h' : core.step s = .next t := h
  simp only [Host.Core.run, h']

end Sys2Proof.Machine
end

