-- ==== Sys2Proof/Laws/Transition.lean ====
section
/-! SUPPORT. A unit's step as a transition of its own fields that emits output: nothing else is read or written
(10_state.md R21, 40_encoder.md R133). Frames, independence and whole calls are read off these lemmas. -/

namespace Sys2Proof.Machine

/-- The encoder's fields after an element, and what is appended to `ENC.out`. -/
def encTrans (u : EncUnit) (e : InElem CodePoint) : EncUnit × List (OutElem Byte) :=
  match e, u.st with
  | .endMark, _ => (EncUnit.reset, [.done (encResult u)])
  | .data _, .failed => (u, [])
  | .data v, .run =>
    match classOf tables v with
    | some n => (u, (encSym tables n v).map .data)
    | none => ({ st := .failed, err := .codePointTooLarge v tables.maxCp }, [])

/-- The decoder's fields after a byte, and what is appended to `DEC.out` (41_decoder.md R170). -/
def byteTrans (u : DecUnit) (b : Byte) : DecUnit × List (OutElem CodePoint) :=
  match u.st with
  | .awaitLead =>
    match leadClass tables b with
    | some n =>
      if n = 0 then (u, [.data (leadPayload tables 0 b)])
      else ({ u with st := .awaitCont, rem := n, acc := leadPayload tables n b }, [])
    | none => ({ st := .failed, rem := 0, acc := 0, err := .invalidLeadByte b }, [])
  | .awaitCont =>
    if isCont tables b then
      if 1 < u.rem.val then ({ u with acc := accumulate tables u.acc b, rem := oneFewer u.rem }, [])
      else ({ u with st := .awaitLead, rem := 0, acc := 0 }, [.data (accumulate tables u.acc b)])
    else ({ st := .failed, rem := 0, acc := 0, err := .invalidContinuationByte b }, [])
  | .failed => (u, [])

/-- The decoder's fields after an element, and what is appended to `DEC.out`. -/
def decTrans (u : DecUnit) (e : InElem Byte) : DecUnit × List (OutElem CodePoint) :=
  match e with
  | .endMark => (DecUnit.reset, [.done (decResult u)])
  | .data b => byteTrans u b

theorem encEffect_eq (e : InElem CodePoint) (s : State) :
    encEffect e s =
      { s with enc := (encTrans s.enc e).1, encOut := s.encOut ++ (encTrans s.enc e).2 } := by
  obtain ⟨⟨st, err⟩, dec, encIn, encOut, decIn, decOut, sched⟩ := s
  match e, st with
  | .endMark, .run => rfl
  | .endMark, .failed => rfl
  | .data _, .failed => simp [encEffect, encTrans]
  | .data v, .run =>
    simp only [encEffect, encTrans]
    cases classOf tables v <;> simp [raise, putEnc]

theorem consumeByte_eq (b : Byte) (s : State) :
    consumeByte b s =
      { s with dec := (byteTrans s.dec b).1, decOut := s.decOut ++ (byteTrans s.dec b).2 } := by
  obtain ⟨enc, ⟨st, rem, acc, err⟩, encIn, encOut, decIn, decOut, sched⟩ := s
  match st with
  | .failed => simp [consumeByte, byteTrans]
  | .awaitLead =>
    simp only [consumeByte, byteTrans]
    cases leadClass tables b with
    | none => simp [raise]
    | some n => by_cases h : n = 0 <;> simp [beginSymbol, putDec, h]
  | .awaitCont =>
    simp only [consumeByte, byteTrans]
    cases isCont tables b
    · simp [raise]
    · by_cases h : 1 < rem.val <;> simp [continueSymbol, putDec, h]

theorem decEffect_eq (e : InElem Byte) (s : State) :
    decEffect e s =
      { s with dec := (decTrans s.dec e).1, decOut := s.decOut ++ (decTrans s.dec e).2 } := by
  cases e with
  | endMark => rfl
  | data b => exact consumeByte_eq b s

/-- The encoder's step on a state whose input has a head element. -/
theorem stepUnit_enc_cons {s : State} {e : InElem CodePoint} {rest : List (InElem CodePoint)}
    (h : s.encIn = e :: rest) :
    stepUnit .enc s = .next { s with
      enc := (encTrans s.enc e).1, encIn := rest, encOut := s.encOut ++ (encTrans s.enc e).2 } := by
  rw [stepUnit_enc, h]
  simp only [encEffect_eq]

/-- The decoder's step on a state whose input has a head element. -/
theorem stepUnit_dec_cons {s : State} {e : InElem Byte} {rest : List (InElem Byte)} (h : s.decIn = e :: rest) :
    stepUnit .dec s = .next { s with
      dec := (decTrans s.dec e).1, decIn := rest, decOut := s.decOut ++ (decTrans s.dec e).2 } := by
  rw [stepUnit_dec, h]
  simp only [decEffect_eq]

/-- The encoder's fields and output after a list of elements. -/
def encTransAll : EncUnit → List (InElem CodePoint) → EncUnit × List (OutElem Byte)
  | u, [] => (u, [])
  | u, e :: es => ((encTransAll (encTrans u e).1 es).1, (encTrans u e).2 ++ (encTransAll (encTrans u e).1 es).2)

/-- The decoder's fields and output after a list of elements. -/
def decTransAll : DecUnit → List (InElem Byte) → DecUnit × List (OutElem CodePoint)
  | u, [] => (u, [])
  | u, e :: es => ((decTransAll (decTrans u e).1 es).1, (decTrans u e).2 ++ (decTransAll (decTrans u e).1 es).2)

theorem encTransAll_append (u : EncUnit) (xs ys : List (InElem CodePoint)) :
    encTransAll u (xs ++ ys) =
      ((encTransAll (encTransAll u xs).1 ys).1, (encTransAll u xs).2 ++ (encTransAll (encTransAll u xs).1 ys).2) := by
  induction xs generalizing u with
  | nil => simp [encTransAll]
  | cons x xs ih => simp [encTransAll, ih]

theorem decTransAll_append (u : DecUnit) (xs ys : List (InElem Byte)) :
    decTransAll u (xs ++ ys) =
      ((decTransAll (decTransAll u xs).1 ys).1, (decTransAll u xs).2 ++ (decTransAll (decTransAll u xs).1 ys).2) := by
  induction xs generalizing u with
  | nil => simp [decTransAll]
  | cons x xs ih => simp [decTransAll, ih]

/-- The encoder, stepped once for each of the elements at the head of its input. -/
theorem runUnit_enc (es rest : List (InElem CodePoint)) (s : State) (h : s.encIn = es ++ rest) :
    runUnit .enc es.length s = .next { s with
      enc := (encTransAll s.enc es).1, encIn := rest, encOut := s.encOut ++ (encTransAll s.enc es).2 } := by
  induction es generalizing s with
  | nil => simp only [List.nil_append] at h; simp [runUnit, encTransAll, ← h]
  | cons e es ih =>
    rw [List.cons_append] at h
    simp only [List.length_cons, runUnit, stepUnit_enc_cons h]
    rw [ih _ rfl]
    simp [encTransAll]

/-- The decoder, stepped once for each of the elements at the head of its input. -/
theorem runUnit_dec (es rest : List (InElem Byte)) (s : State) (h : s.decIn = es ++ rest) :
    runUnit .dec es.length s = .next { s with
      dec := (decTransAll s.dec es).1, decIn := rest, decOut := s.decOut ++ (decTransAll s.dec es).2 } := by
  induction es generalizing s with
  | nil => simp only [List.nil_append] at h; simp [runUnit, decTransAll, ← h]
  | cons e es ih =>
    rw [List.cons_append] at h
    simp only [List.length_cons, runUnit, stepUnit_dec_cons h]
    rw [ih _ rfl]
    simp [decTransAll]

/-- The bytes of a symbol, consumed one after another, as a transition of the decoder. -/
theorem consumeBytes_eq (bytes : List Byte) (s : State) :
    consumeBytes bytes s = { s with
      dec := (decTransAll s.dec (bytes.map .data)).1
      decOut := s.decOut ++ (decTransAll s.dec (bytes.map .data)).2 } := by
  induction bytes generalizing s with
  | nil => simp [consumeBytes, decTransAll]
  | cons b bytes ih => rw [consumeBytes, ih, consumeByte_eq]; simp [decTransAll, decTrans]

end Sys2Proof.Machine
end

