-- ==== Sys2Proof/Laws/Calls.lean ====
section
/-! SUPPORT. The elements of one call, consumed by a unit in its reset state, against the function level
(42_transactions.md R200). -/

namespace Sys2Proof.Machine

/-- A failed encoder discards data (40_encoder.md R130). -/
theorem encTransAll_failed (e : ErrorRecord) (S : List CodePoint) :
    encTransAll { st := .failed, err := e } (S.map .data) = ({ st := .failed, err := e }, []) := by
  induction S with
  | nil => rfl
  | cons v S ih => simp [encTransAll, encTrans, ih]

/-- The data of a call that encodes. -/
theorem encTransAll_ok {S : List CodePoint} {B : List Byte} (h : encodeSeq tables S = .ok B) :
    encTransAll EncUnit.reset (S.map .data) = (EncUnit.reset, B.map .data) := by
  induction S generalizing B with
  | nil => cases h; rfl
  | cons v S ih =>
    cases hc : classOf tables v with
    | none => rw [encodeSeq_cons_error (encodeOne_of_tooLarge hc)] at h; cases h
    | some n =>
      rw [encodeSeq_cons_ok (encodeOne_of_class hc)] at h
      cases hs : encodeSeq tables S with
      | error e => rw [hs] at h; cases h
      | ok B' =>
        rw [hs] at h; cases h
        have h1 : encTrans EncUnit.reset (.data v) = (EncUnit.reset, (encSym tables n v).map .data) := by
          simp [encTrans, EncUnit.reset, hc]
        simp [encTransAll, h1, ih hs]

/-- The data of a call that does not encode. -/
theorem encTransAll_error {S : List CodePoint} {e : ErrorRecord} (h : encodeSeq tables S = .error e) :
    ∃ void : List Byte,
      encTransAll EncUnit.reset (S.map .data) = ({ st := .failed, err := e }, void.map .data) := by
  induction S with
  | nil => cases h
  | cons v S ih =>
    cases hc : classOf tables v with
    | none =>
      rw [encodeSeq_cons_error (encodeOne_of_tooLarge hc)] at h; cases h
      have h1 : encTrans EncUnit.reset (.data v) =
          ({ st := .failed, err := .codePointTooLarge v tables.maxCp }, []) := by
        simp [encTrans, EncUnit.reset, hc]
      exact ⟨[], by simp [encTransAll, h1, encTransAll_failed]⟩
    | some n =>
      rw [encodeSeq_cons_ok (encodeOne_of_class hc)] at h
      cases hs : encodeSeq tables S with
      | ok B' => rw [hs] at h; cases h
      | error e' =>
        rw [hs] at h; cases h
        obtain ⟨void, hv⟩ := ih hs
        have h1 : encTrans EncUnit.reset (.data v) = (EncUnit.reset, (encSym tables n v).map .data) := by
          simp [encTrans, EncUnit.reset, hc]
        exact ⟨encSym tables n v ++ void, by simp [encTransAll, h1, hv]⟩

/-- A failed decoder discards data (41_decoder.md R163). -/
theorem decTransAll_failed (e : ErrorRecord) (B : List Byte) :
    decTransAll { st := .failed, rem := 0, acc := 0, err := e } (B.map .data) =
      ({ st := .failed, rem := 0, acc := 0, err := e }, []) := by
  induction B with
  | nil => rfl
  | cons b B ih => simp only [List.map_cons, decTransAll, decTrans, byteTrans, ih, List.nil_append]

/-- The decoder's fields within a symbol, `r` continuation bytes still to come. -/
def within (r : Fin 6) (acc : CodePoint) : DecUnit := { st := .awaitCont, rem := r, acc := acc, err := .none }

theorem byteTrans_within_more {r r' : Fin 6} {acc : CodePoint} {b : Byte} (hr : r.val = r'.val + 1)
    (hr' : r' ≠ 0) (hc : isCont tables b = true) :
    byteTrans (within r acc) b = (within r' (accumulate tables acc b), []) := by
  have h1 : 1 < r.val := by
    have : r'.val ≠ 0 := fun h => hr' (Fin.ext h)
    omega
  have h2 : oneFewer r = r' := Fin.ext (by simp [oneFewer, hr])
  simp [byteTrans, within, hc, h1, h2]

theorem byteTrans_within_last {acc : CodePoint} {b : Byte} (hc : isCont tables b = true) :
    byteTrans (within 1 acc) b = (DecUnit.reset, [.data (accumulate tables acc b)]) := by
  simp [byteTrans, within, hc, DecUnit.reset]

theorem byteTrans_within_bad {r : Fin 6} {acc : CodePoint} {b : Byte} (hc : isCont tables b = false) :
    byteTrans (within r acc) b =
      ({ st := .failed, rem := 0, acc := 0, err := .invalidContinuationByte b }, []) := by
  simp [byteTrans, within, hc]

/-- The rest of a symbol, as step 4 of `decode_one` reads it: whole, after which the decoder is in its reset
state; cut short, within the symbol; or failed on a byte (42_transactions.md R194). -/
theorem decTransAll_within (k : Nat) (r : Fin 6) (acc : CodePoint) (l : List Byte) (hr : r.val = k + 1) :
    (∀ v after, decodeConts tables (k + 1) acc l = .ok (v, after) →
      decTransAll (within r acc) (l.map .data) =
        ((decTransAll DecUnit.reset (after.map .data)).1,
          .data v :: (decTransAll DecUnit.reset (after.map .data)).2)) ∧
    (decodeConts tables (k + 1) acc l = .error .unexpectedEnd →
      ∃ r' acc', decTransAll (within r acc) (l.map .data) = (within r' acc', [])) ∧
    (∀ e, decodeConts tables (k + 1) acc l = .error e → e ≠ .unexpectedEnd →
      decTransAll (within r acc) (l.map .data) = ({ st := .failed, rem := 0, acc := 0, err := e }, [])) := by
  induction l generalizing k r acc with
  | nil => exact ⟨fun _ _ h => (by cases h), fun _ => ⟨r, acc, rfl⟩, fun e h hn => by cases h; exact absurd rfl hn⟩
  | cons b l ih =>
    cases hc : isCont tables b with
    | false =>
      have hd : decodeConts tables (k + 1) acc (b :: l) = .error (.invalidContinuationByte b) := by
        simp [decodeConts, hc]
      refine ⟨fun _ _ h => (by rw [hd] at h; cases h), fun h => (by rw [hd] at h; cases h), fun e h _ => ?_⟩
      rw [hd] at h; cases h
      simp only [List.map_cons, decTransAll, decTrans, byteTrans_within_bad hc, decTransAll_failed,
        List.nil_append]
    | true =>
      have hd : decodeConts tables (k + 1) acc (b :: l) = decodeConts tables k (accumulate tables acc b) l := by
        simp [decodeConts, hc]
      rw [hd]
      cases k with
      | zero =>
        obtain rfl : r = 1 := Fin.ext hr
        refine ⟨fun v after h => ?_, fun h => (by cases h), fun e h => by cases h⟩
        cases h
        simp [decTransAll, decTrans, byteTrans_within_last hc]
      | succ k =>
        have hk : k + 1 < 6 := by have := r.isLt; omega
        have hb := byteTrans_within_more (r := r) (r' := ⟨k + 1, hk⟩) (acc := acc) (by simp [hr])
          (fun h => by cases h) hc
        simpa [decTransAll, decTrans, hb] using ih k ⟨k + 1, hk⟩ (accumulate tables acc b) rfl

/-- The front of a sequence, as `decode_one` reads it, from the decoder's reset state (42_transactions.md R194). -/
theorem decTransAll_front (b : Byte) (l : List Byte) :
    (∀ v after, decodeOne tables (b :: l) = .ok (v, after) →
      decTransAll DecUnit.reset ((b :: l).map .data) =
        ((decTransAll DecUnit.reset (after.map .data)).1,
          .data v :: (decTransAll DecUnit.reset (after.map .data)).2)) ∧
    (decodeOne tables (b :: l) = .error .unexpectedEnd →
      ∃ r acc, decTransAll DecUnit.reset ((b :: l).map .data) = (within r acc, [])) ∧
    (∀ e, decodeOne tables (b :: l) = .error e → e ≠ .unexpectedEnd →
      decTransAll DecUnit.reset ((b :: l).map .data) =
        ({ st := .failed, rem := 0, acc := 0, err := e }, [])) := by
  cases hc : leadClass tables b with
  | none =>
    have hd : decodeOne tables (b :: l) = .error (.invalidLeadByte b) := by simp [decodeOne, hc]
    have hb : byteTrans DecUnit.reset b =
        ({ st := .failed, rem := 0, acc := 0, err := .invalidLeadByte b }, []) := by
      simp [byteTrans, DecUnit.reset, hc]
    refine ⟨fun _ _ h => (by rw [hd] at h; cases h), fun h => (by rw [hd] at h; cases h), fun e h _ => ?_⟩
    rw [hd] at h; cases h
    simp only [List.map_cons, decTransAll, decTrans, hb, decTransAll_failed, List.nil_append]
  | some n =>
    have hd : decodeOne tables (b :: l) = decodeConts tables n.val (leadPayload tables n b) l := by
      simp [decodeOne, hc]
    rw [hd]
    by_cases hn : n = 0
    · subst hn
      have hb : byteTrans DecUnit.reset b = (DecUnit.reset, [.data (leadPayload tables 0 b)]) := by
        simp [byteTrans, DecUnit.reset, hc]
      refine ⟨fun v after h => ?_, fun h => (by cases h), fun e h => by cases h⟩
      cases h
      simp [decTransAll, decTrans, hb]
    · obtain ⟨k, hk⟩ : ∃ k, n.val = k + 1 := Nat.exists_eq_succ_of_ne_zero (fun h => hn (Fin.ext h))
      have hb : byteTrans DecUnit.reset b = (within n (leadPayload tables n b), []) := by
        simp [byteTrans, DecUnit.reset, hc, hn, within]
      rw [hk]
      simpa [decTransAll, decTrans, hb] using decTransAll_within k n (leadPayload tables n b) l hk

end Sys2Proof.Machine
end

