-- ==== Sys2Proof/Laws/PerInstr.lean ====
section
/-! SUPPORT. The width of every instruction's encoding, constructor by constructor. -/

namespace Sys2Proof.Laws.Width

/-- The bits of an instruction: `width_bits` of its row in spec/opcode_table.json; for the two `DRAIN` rows, to
which the table gives no bits, the width of the element they discard (20_memory.md R53, R54). -/
def bitsOf : Instr → Nat
  | .seq1 _ => 8
  | .seq2 _ _ => 16
  | .seq3 _ _ _ => 24
  | .seq4 _ _ _ _ => 32
  | .seq5 _ _ _ _ _ => 40
  | .seq6 _ _ _ _ _ _ => 48
  | .decLead1 _ => 8
  | .decLead2 _ => 8
  | .decLead3 _ => 8
  | .decLead4 _ => 8
  | .decLead5 _ => 8
  | .decLead6 _ => 8
  | .decBadlead10 _ => 8
  | .decBadleadFeff _ => 8
  | .decCont _ => 8
  | .decBadcont0 _ => 8
  | .decBadcont11 _ => 8
  | .enc1 _ => 32
  | .enc2 _ => 32
  | .enc3 _ => 32
  | .enc4 _ => 32
  | .enc5 _ => 32
  | .enc6 _ => 32
  | .encToolarge _ => 32
  | .encDrain _ => 32
  | .encEnd => 0
  | .decDrain _ => 8
  | .decEndOk => 0
  | .decEndTrunc => 0
  | .decEndFail => 0

/-- What the encoder writes for the instruction has the width of its row. -/
def Statement (i : Instr) : Prop := (encode i).width = bitsOf i

theorem seq1 (a : BitVec 7) : Statement (.seq1 a) := rfl

theorem seq2 (a : BitVec 5) (b : BitVec 6) : Statement (.seq2 a b) := rfl

theorem seq3 (a : BitVec 4) (b c : BitVec 6) : Statement (.seq3 a b c) := rfl

theorem seq4 (a : BitVec 3) (b c d : BitVec 6) : Statement (.seq4 a b c d) := rfl

theorem seq5 (a : BitVec 2) (b c d e : BitVec 6) : Statement (.seq5 a b c d e) := rfl

theorem seq6 (a : BitVec 1) (b c d e f : BitVec 6) : Statement (.seq6 a b c d e f) := rfl

theorem decLead1 (b : Byte) : Statement (.decLead1 b) := rfl

theorem decLead2 (b : Byte) : Statement (.decLead2 b) := rfl

theorem decLead3 (b : Byte) : Statement (.decLead3 b) := rfl

theorem decLead4 (b : Byte) : Statement (.decLead4 b) := rfl

theorem decLead5 (b : Byte) : Statement (.decLead5 b) := rfl

theorem decLead6 (b : Byte) : Statement (.decLead6 b) := rfl

theorem decBadlead10 (b : Byte) : Statement (.decBadlead10 b) := rfl

theorem decBadleadFeff (b : Byte) : Statement (.decBadleadFeff b) := rfl

theorem decCont (b : Byte) : Statement (.decCont b) := rfl

theorem decBadcont0 (b : Byte) : Statement (.decBadcont0 b) := rfl

theorem decBadcont11 (b : Byte) : Statement (.decBadcont11 b) := rfl

theorem enc1 (v : CodePoint) : Statement (.enc1 v) := rfl

theorem enc2 (v : CodePoint) : Statement (.enc2 v) := rfl

theorem enc3 (v : CodePoint) : Statement (.enc3 v) := rfl

theorem enc4 (v : CodePoint) : Statement (.enc4 v) := rfl

theorem enc5 (v : CodePoint) : Statement (.enc5 v) := rfl

theorem enc6 (v : CodePoint) : Statement (.enc6 v) := rfl

theorem encToolarge (v : CodePoint) : Statement (.encToolarge v) := rfl

theorem encDrain (v : CodePoint) : Statement (.encDrain v) := rfl

theorem encEnd : Statement .encEnd := rfl

theorem decDrain (b : Byte) : Statement (.decDrain b) := rfl

theorem decEndOk : Statement .decEndOk := rfl

theorem decEndTrunc : Statement .decEndTrunc := rfl

theorem decEndFail : Statement .decEndFail := rfl

end Sys2Proof.Laws.Width
end

