-- ==== Sys2Proof/Tests/Slice0.lean ====
section
/-! SUPPORT. Small checks. Expected values are those of spec/95_test_vectors.md and of the examples and corner
cases in the rules; words are written out from 30_encoding.md R81 and R82. `test_witness_<Name>` shows, at the
ends of every range, operands and a state that meet all hypotheses of `Obligations.<Name>` together. -/

namespace Sys2Proof.Tests

open Machine

/-! ## Helpers -/

/-- The state a step or a meaning gives, where it gives one. -/
def after (o : Host.Outcome State Fault Refusal) : Option State :=
  match o with
  | .next s => some s
  | .fault _ => none
  | .refused _ => none

/-- It was refused because the case is not selected. -/
def isNotSelected (o : Host.Outcome State Fault Refusal) : Bool :=
  match o with
  | .refused .caseNotSelected => true
  | _ => false

/-- The decoder after reset but for its fields. -/
def decAt (st : DecSt) (rem : Fin 6) (acc : CodePoint) (err : ErrorRecord) : State :=
  { State.reset with dec := { st, rem, acc, err } }

/-- The encoder failed on `0x80000000`. -/
def encFailed : State :=
  { State.reset with enc := { st := .failed, err := .codePointTooLarge 0x80000000 0x7FFFFFFF } }

/-- The decoder failed on the byte `0x28` (spec/95_test_vectors.md 2.8). -/
def decFailed : State := decAt .failed 0 0 (.invalidContinuationByte 0x28)

/-- `ENC.out` after a meaning. -/
def encOutOf (o : Host.Outcome State Fault Refusal) : Option (List (OutElem Byte)) := (after o).map (·.encOut)

/-- `DEC.out` after a meaning. -/
def decOutOf (o : Host.Outcome State Fault Refusal) : Option (List (OutElem CodePoint)) := (after o).map (·.decOut)

/-- The decoder's fields after a meaning. -/
def decOf (o : Host.Outcome State Fault Refusal) : Option DecUnit := (after o).map (·.dec)

/-- The encoder's fields after a meaning. -/
def encOf (o : Host.Outcome State Fault Refusal) : Option EncUnit := (after o).map (·.enc)

/-- A value that was given; none for an error. -/
def valueOf {ε α : Type} (x : Except ε α) : Option α :=
  match x with
  | .ok a => some a
  | .error _ => none

/-- An error that was given; none for a value. -/
def errorOf {ε α : Type} (x : Except ε α) : Option ε :=
  match x with
  | .ok _ => none
  | .error e => some e

/-! ## Well-formedness -/

/-- 00_scope.md R7: the values of R6 satisfy it; the printed `CEIL[3]` does not (93_implementation_defined.md U2
admits it). -/
theorem test_wf_config : tables.wf = true ∧ printedTables.wf = false ∧ printedTables.admissible = true := by decide

theorem test_wf_config_refuses_ceil_not_increasing :
    { tables with ceil := #v[0x7F, 0x7FF, 0xFFFF, 0xFFFF, 0x3FFFFFF, 0x7FFFFFFF] }.ceilIncreasing = false := by
  decide

theorem test_wf_config_refuses_budget :
    { tables with budget := #v[7, 12, 16, 21, 26, 31] }.ceilMatchesBudget 1 = false := by decide

theorem test_wf_config_refuses_leadBits :
    { tables with leadBits := #v[7, 5, 4, 3, 2, 2] }.fieldsConsistent = false := by decide

/-- Five payload bits in a continuation byte, everything else made to fit them: R7 (c) has 6. -/
def fiveBitContinuations : Config where
  ceil := #v[0x7F, 0x3FF, 0x3FFF, 0x3FFFF, 0x3FFFFF, 0x3FFFFFF]
  budget := #v[7, 10, 14, 18, 22, 26]
  leadMark := tables.leadMark
  leadMask := tables.leadMask
  leadBits := tables.leadBits
  contMark := 0x80
  contMask := 0xE0
  contBits := 5

theorem test_wf_config_refuses_contBits :
    fiveBitContinuations.fieldsConsistent = false ∧ fiveBitContinuations.wf = false ∧
    fiveBitContinuations.admissible = false ∧ { tables with contBits := 5 }.wf = false ∧
    { tables with contMask := 0xE0 }.wf = false := by decide

theorem test_wf_config_refuses_leadMask :
    { tables with leadMask := #v[0x80, 0xF0, 0xF0, 0xF8, 0xFC, 0xFE] }.fieldsConsistent = false ∧
    { tables with leadMark := #v[0x00, 0xC1, 0xE0, 0xF0, 0xF8, 0xFC] }.fieldsConsistent = false := by decide

theorem test_wf_config_refuses_overlapping_patterns :
    { tables with leadMark := #v[0x00, 0xC0, 0xC0, 0xF0, 0xF8, 0xFC] }.allPatternsDisjoint = false := by decide

theorem test_wf_config_refuses_lead_that_continues : { tables with contMark := 0xC0 }.allPatternsDisjoint = false := by
  decide

theorem test_wf_admissible_refuses_other_ceil :
    { tables with ceil := #v[0x7F, 0x7FF, 0xFFFF, 0x1FFFE, 0x3FFFFFF, 0x7FFFFFFF] }.admissible = false := by decide

theorem test_wf_refuses_bytes :
    (Instr.decLead1 0x80).wf = false ∧ (Instr.decLead2 0xE0).wf = false ∧ (Instr.decLead3 0xDF).wf = false ∧
    (Instr.decLead4 0xF8).wf = false ∧ (Instr.decLead5 0xF7).wf = false ∧ (Instr.decLead6 0xFE).wf = false ∧
    (Instr.decBadlead10 0xC0).wf = false ∧ (Instr.decBadleadFeff 0xFD).wf = false ∧
    (Instr.decCont 0x7F).wf = false ∧ (Instr.decBadcont0 0x80).wf = false ∧ (Instr.decBadcont11 0xBF).wf = false := by
  decide

theorem test_wf_refuses_code_points :
    (Instr.enc1 0x80).wf = false ∧ (Instr.enc2 0x7F).wf = false ∧ (Instr.enc2 0x800).wf = false ∧
    (Instr.enc3 0x7FF).wf = false ∧ (Instr.enc3 0x10000).wf = false ∧ (Instr.enc4 0xFFFF).wf = false ∧
    (Instr.enc4 0x200000).wf = false ∧ (Instr.enc5 0x1FFFFF).wf = false ∧ (Instr.enc5 0x4000000).wf = false ∧
    (Instr.enc6 0x3FFFFFF).wf = false ∧ (Instr.enc6 0x80000000).wf = false ∧
    (Instr.encToolarge 0x7FFFFFFF).wf = false := by
  decide

/-! ## Decoding, one word for every row that has bits (30_encoding.md R81, R82, R85) -/

theorem test_decode_seq1 : valueOf (decode tables (.symbol [0b01110100])) = some (.seq1 0b1110100) := by decide

theorem test_decode_seq2 : decodeTableWord 16 0b1101000010010110 = some (.seq2 0b10000 0b010110) := by decide

theorem test_decode_seq3 :
    decodeTableWord 24 0b111000101000001010101100 = some (.seq3 0b0010 0b000010 0b101100) := by decide

theorem test_decode_seq4 :
    decodeTableWord 32 0b11110000100100001000110110001000 = some (.seq4 0b000 0b010000 0b001101 0b001000) := by
  decide

theorem test_decode_seq5 :
    decodeTableWord 40 0b1111100110001000101101001001010110100111 =
      some (.seq5 0b01 0b001000 0b110100 0b010101 0b100111) := by decide

theorem test_decode_seq6 :
    decodeTableWord 48 0b111111011000000010000000100000001000000010000001 = some (.seq6 0b1 0 0 0 0 0b000001) := by
  decide

theorem test_decode_leads :
    decodeTableWord 8 0b01110100 = some (.decLead1 0x74) ∧ decodeTableWord 8 0b11010000 = some (.decLead2 0xD0) ∧
    decodeTableWord 8 0b11100101 = some (.decLead3 0xE5) ∧ decodeTableWord 8 0b11110000 = some (.decLead4 0xF0) ∧
    decodeTableWord 8 0b11111001 = some (.decLead5 0xF9) ∧ decodeTableWord 8 0b11111101 = some (.decLead6 0xFD) ∧
    decodeTableWord 8 0b10010110 = some (.decBadlead10 0x96) ∧
    decodeTableWord 8 0b11111110 = some (.decBadleadFeff 0xFE) := by decide

/-- The rows of `AWAIT_CONT` are read in that status. -/
theorem test_decode_conts :
    decodeDec tables .awaitCont (.data 0b10010110) = .decCont 0x96 ∧
    decodeDec tables .awaitCont (.data 0b00101000) = .decBadcont0 0x28 ∧
    decodeDec tables .awaitCont (.data 0b11100010) = .decBadcont11 0xE2 := by decide

theorem test_decode_encs :
    decodeTableWord 32 0b1110100 = some (.enc1 0x74) ∧ decodeTableWord 32 0b10000010110 = some (.enc2 0x416) ∧
    decodeTableWord 32 0b10000010101100 = some (.enc3 0x20AC) ∧
    decodeTableWord 32 0b10000001101001000 = some (.enc4 0x10348) ∧
    decodeTableWord 32 0b1001000110100010101100111 = some (.enc5 0x1234567) ∧
    decodeTableWord 32 0b1000000000000000000000000000000 = some (.enc6 0x40000000) ∧
    decodeTableWord 32 0b10000000000000000000000000000000 = some (.encToolarge 0x80000000) := by decide

/-- The rows without bits are told by status and kind of element (30_encoding.md R94 (d)). -/
theorem test_decode_rows_without_bits :
    decodeEnc tables .failed (.data 0x41) = .encDrain 0x41 ∧ decodeEnc tables .run .endMark = .encEnd ∧
    decodeEnc tables .failed .endMark = .encEnd ∧ decodeDec tables .failed (.data 0x41) = .decDrain 0x41 ∧
    decodeDec tables .awaitLead .endMark = .decEndOk ∧ decodeDec tables .awaitCont .endMark = .decEndTrunc ∧
    decodeDec tables .failed .endMark = .decEndFail := by decide

/-- Bytes that are no symbol are rejected by name (30_encoding.md R88, R89, R90). -/
theorem test_decode_rejects :
    errorOf (decode tables (.symbol [0x80])) = some (.malformed (.invalidLeadByte 0x80)) ∧
    errorOf (decode tables (.symbol [0xC3, 0x28])) = some (.malformed (.invalidContinuationByte 0x28)) ∧
    errorOf (decode tables (.symbol [0xE2, 0x82])) = some (.malformed .unexpectedEnd) ∧
    errorOf (decode tables (.symbol [0x74, 0x41])) = some (.trailing [0x41]) := by decide

/-! ## The encoder's cases (spec/95_test_vectors.md 2.1, 2.4; programs 1 and 4) -/

theorem test_enc1 : encOutOf (exec (.enc1 0x7F) State.reset) = some [.data 0x7F] := by decide

theorem test_enc2 : encOutOf (exec (.enc2 0x80) State.reset) = some [.data 0xC2, .data 0x80] := by decide

theorem test_enc3 : encOutOf (exec (.enc3 0xFFFF) State.reset) = some [.data 0xEF, .data 0xBF, .data 0xBF] := by
  decide

theorem test_enc4 :
    encOutOf (exec (.enc4 0x10348) State.reset) = some [.data 0xF0, .data 0x90, .data 0x8D, .data 0x88] := by decide

theorem test_enc5 :
    encOutOf (exec (.enc5 0x1234567) State.reset) =
      some [.data 0xF9, .data 0x88, .data 0xB4, .data 0x95, .data 0xA7] := by decide

theorem test_enc6 :
    encOutOf (exec (.enc6 0x7654321) State.reset) =
      some [.data 0xFC, .data 0x87, .data 0x99, .data 0x94, .data 0x8C, .data 0xA1] := by decide

theorem test_encToolarge : after (exec (.encToolarge 0x80000000) State.reset) = some encFailed := by decide

theorem test_encDrain_keeps_first_error : after (exec (.encDrain 0xFFFFFFFF) encFailed) = some encFailed := by decide

theorem test_encEnd_failed :
    after (exec .encEnd encFailed) =
      some { State.reset with encOut := [.done (.err (.codePointTooLarge 0x80000000 0x7FFFFFFF))] } := by decide

theorem test_encEnd_empty_call :
    after (exec .encEnd State.reset) = some { State.reset with encOut := [.done .ok] } := by decide

/-! ## The decoder's cases (the examples of 41_decoder.md R151 to R164; spec/95_test_vectors.md 2.8) -/

theorem test_decLead1 : after (exec (.decLead1 0x74) State.reset) =
    some { State.reset with decOut := [.data 0x74] } := by decide

theorem test_decLead2 : decOf (exec (.decLead2 0xD0) State.reset) = some ⟨.awaitCont, 1, 0x10, .none⟩ := by decide

theorem test_decLead3 : decOf (exec (.decLead3 0xE5) State.reset) = some ⟨.awaitCont, 2, 0x5, .none⟩ := by decide

theorem test_decLead4 : decOf (exec (.decLead4 0xF7) State.reset) = some ⟨.awaitCont, 3, 0x7, .none⟩ := by decide

theorem test_decLead5 : decOf (exec (.decLead5 0xF9) State.reset) = some ⟨.awaitCont, 4, 1, .none⟩ := by decide

theorem test_decLead6 : decOf (exec (.decLead6 0xFD) State.reset) = some ⟨.awaitCont, 5, 1, .none⟩ := by decide

theorem test_decBadlead10 :
    after (exec (.decBadlead10 0x80) State.reset) = some (decAt .failed 0 0 (.invalidLeadByte 0x80)) := by decide

theorem test_decBadleadFeff :
    after (exec (.decBadleadFeff 0xFF) State.reset) = some (decAt .failed 0 0 (.invalidLeadByte 0xFF)) := by decide

theorem test_decCont_more :
    after (exec (.decCont 0xBF) (decAt .awaitCont 2 0x7FFFF .none)) = some (decAt .awaitCont 1 0x1FFFFFF .none) := by
  decide

theorem test_decCont_last :
    after (exec (.decCont 0xBF) (decAt .awaitCont 1 0x1FFFFFF .none)) =
      some { State.reset with decOut := [.data 0x7FFFFFFF] } := by decide

theorem test_decBadcont0 : after (exec (.decBadcont0 0x28) (decAt .awaitCont 1 0x3 .none)) = some decFailed := by decide

theorem test_decBadcont11 :
    decOf (exec (.decBadcont11 0xFF) (decAt .awaitCont 1 0x3 .none)) =
      some ⟨.failed, 0, 0, .invalidContinuationByte 0xFF⟩ := by decide

theorem test_decDrain : after (exec (.decDrain 0x41) decFailed) = some decFailed := by decide

theorem test_decEndOk : after (exec .decEndOk State.reset) =
    some { State.reset with decOut := [.done .ok] } := by decide

theorem test_decEndTrunc : after (exec .decEndTrunc (decAt .awaitCont 2 0x5 .none)) =
    some { State.reset with decOut := [.done (.err .unexpectedEnd)] } := by decide

theorem test_decEndFail : after (exec .decEndFail decFailed) =
    some { State.reset with decOut := [.done (.err (.invalidContinuationByte 0x28))] } := by decide

/-! ## Whole symbols (spec/95_test_vectors.md 2.6, the overlong forms among them) -/

theorem test_seq1 : decOutOf (exec (.seq1 0x00) State.reset) = some [.data 0x0] := by decide

theorem test_seq2_overlong : decOutOf (exec (.seq2 0b00001 0b111111) State.reset) = some [.data 0x7F] := by decide

theorem test_seq3 : decOutOf (exec (.seq3 0b0010 0b000010 0b101100) State.reset) = some [.data 0x20AC] := by decide

theorem test_seq4 :
    decOutOf (exec (.seq4 0b100 0b010000 0b000000 0b000000) State.reset) = some [.data 0x110000] := by decide

theorem test_seq5 :
    decOutOf (exec (.seq5 0b01 0b001000 0b110100 0b010101 0b100111) State.reset) = some [.data 0x1234567] := by decide

theorem test_seq6 : after (exec (.seq6 0b1 0 0 0 0 0) State.reset) =
    some { State.reset with decOut := [.data 0x40000000] } := by decide

/-! ## Codes, functions, observation, host -/

/-- 60_exceptions.md R225, 10_state.md R22, R23. -/
theorem test_codes :
    errorCode .none = 0 ∧ errorCode (.codePointTooLarge 0x80000000 0x7FFFFFFF) = 1 ∧
    errorCode (.invalidLeadByte 0x80) = 2 ∧ errorCode (.invalidContinuationByte 0x28) = 3 ∧
    errorCode .unexpectedEnd = 4 ∧ encStCode .run = 0 ∧ encStCode .failed = 1 ∧ decStCode .awaitLead = 0 ∧
    decStCode .awaitCont = 1 ∧ decStCode .failed = 2 := by decide

/-- 42_transactions.md R207, the regression vector. -/
theorem test_regression_vector : errorOf (decodeSeq tables [0x74, 0xE5]) = some .unexpectedEnd := by decide

/-- spec/95_test_vectors.md 2.7. -/
theorem test_decode_errors :
    errorOf (decodeSeq tables [0xFD, 0xBF, 0xBF, 0xBF, 0xBF, 0x7F]) = some (.invalidContinuationByte 0x7F) ∧
    errorOf (decodeSeq tables [0x80, 0xC3]) = some (.invalidLeadByte 0x80) ∧
    errorOf (decodeSeq tables [0xC3, 0x28, 0xFF]) = some (.invalidContinuationByte 0x28) ∧
    errorOf (decodeSeq tables [0x41, 0x42, 0xFE, 0x43]) = some (.invalidLeadByte 0xFE) := by decide

/-- spec/95_test_vectors.md 2.6, a symbol of each of the classes 0 to 3, and the empty call (R195). -/
theorem test_decode_values :
    valueOf (decodeSeq tables [0x74, 0xD0, 0x96, 0xE2, 0x82, 0xAC, 0xF0, 0x90, 0x8D, 0x88]) =
      some [0x74, 0x416, 0x20AC, 0x10348] ∧
    valueOf (decodeSeq tables []) = some [] ∧ valueOf (encodeSeq tables []) = some [] := by decide

/-- 42_transactions.md R206, the first word of the golden text's second half, with a line feed
(spec/95_test_vectors.md 1.6). -/
theorem test_golden_part :
    valueOf (encodeSeq tables [0x41C, 0x430, 0x448, 0x438, 0x43D, 0x430, 0x0A]) =
      some [0xD0, 0x9C, 0xD0, 0xB0, 0xD1, 0x88, 0xD0, 0xB8, 0xD0, 0xBD, 0xD0, 0xB0, 0x0A] := by decide

/-- spec/95_test_vectors.md 2.3, both columns. -/
theorem test_printed_ceiling :
    valueOf (encodeOne tables 0x20000) = some [0xF0, 0xA0, 0x80, 0x80] ∧
    valueOf (encodeOne printedTables 0x20000) = some [0xF8, 0x80, 0xA0, 0x80, 0x80] ∧
    valueOf (encodeOne printedTables 0x1FFFFF) = some [0xF8, 0x87, 0xBF, 0xBF, 0xBF] ∧
    valueOf (encodeOne printedTables 0x200000) = some [0xF8, 0x88, 0x80, 0x80, 0x80] := by decide

/-- spec/95_test_vectors.md, program 4: what stands before `DONE(ERR(e))` is void. -/
theorem test_results_of_failed_call :
    (results [.data (0x41 : Byte), .done (.err (.codePointTooLarge 0x80000000 0x7FFFFFFF)), .data 0xFD,
      .done .ok]).map valueOf = [none, some [0xFD]] := by decide

/-- 30_encoding.md R95, 20_memory.md R57. -/
theorem test_script_put :
    after (applyAction (.decPut [0xE2, 0x82]) State.reset) =
      some { State.reset with decIn := [.data 0xE2, .data 0x82] } := by decide

/-- 20_memory.md R58. -/
theorem test_script_take :
    after (applyAction .encTake { State.reset with encOut := [.data 0x74, .done .ok] }) =
      some { State.reset with encOut := [.done .ok] } := by decide

theorem test_script_run_one :
    after (applyAction .encRun { State.reset with encIn := [.data 0x74] }) =
      some { State.reset with encOut := [.data 0x74] } := by decide

theorem test_script_reset : after (applyAction .reset decFailed) = some State.reset := by decide

/-- A case its dispatch table does not select is refused (log entry 4). -/
theorem test_not_selected :
    isNotSelected (exec (.enc1 0x80) State.reset) = true ∧ isNotSelected (exec (.encDrain 0x41) State.reset) = true ∧
    isNotSelected (exec (.decCont 0x80) State.reset) = true ∧ isNotSelected (exec .decEndFail State.reset) = true := by
  decide

/-- The placed word is what the next step runs (log entry 8). -/
theorem test_withFetchWord_dec :
    decOf (step (State.reset.withFetchWord 8 0xE5)) = decOf (exec (.decLead3 0xE5) State.reset) := by decide

theorem test_withFetchWord_enc :
    after (step (State.reset.withFetchWord 32 0x80000000)) = some encFailed := by decide

/-- Of a symbol's bytes the step takes the first. -/
theorem test_withFetchWord_symbol :
    after (step (State.reset.withFetchWord 16 0xD096)) =
      some { decAt .awaitCont 1 0x10 .none with decIn := [.data 0x96], sched := ⟨.dec, 0, 0⟩ } := by decide

/-! ## Witnesses for the hypotheses of the statements -/

theorem test_witness_StepKeepsTheInvariant :
    State.Inv { decAt .awaitCont 1 0x82 .none with decIn := [.data 0xAC] } ∧
    decOutOf (step { decAt .awaitCont 1 0x82 .none with decIn := [.data 0xAC] }) = some [.data 0x20AC] := by decide

theorem test_witness_DecodeOfEncodeIsTheInstruction :
    [Instr.seq1 0, .seq2 0 0, .seq3 0 0 0, .seq4 7 63 63 63, .seq5 0 0 0 0 0, .seq6 1 63 63 63 63 63,
      .decLead1 0x7F, .decLead2 0xC0, .decLead3 0xEF, .decLead4 0xF0, .decLead5 0xFB, .decLead6 0xFC,
      .decBadlead10 0xBF, .decBadleadFeff 0xFE, .decCont 0x80, .decBadcont0 0x7F, .decBadcont11 0xC0].all Instr.wf =
      true ∧
    [Instr.enc1 0, .enc1 0x7F, .enc2 0x80, .enc2 0x7FF, .enc3 0x800, .enc3 0xFFFF, .enc4 0x10000, .enc4 0x1FFFFF,
      .enc5 0x200000, .enc5 0x3FFFFFF, .enc6 0x4000000, .enc6 0x7FFFFFFF, .encToolarge 0x80000000, .encDrain 0,
      .encEnd, .decDrain 0, .decEndOk, .decEndTrunc, .decEndFail].all Instr.wf = true := by decide

theorem test_witness_EncodeOfDecodeIsTheIssue :
    valueOf (decode tables (.symbol [0xC2, 0x80])) = some (.seq2 2 0) ∧
    Issue.symbol [0xC2, 0x80] ≠ .enc .failed .endMark := by decide

/-- Each row of the table at both ends of its range. -/
theorem test_witness_EncoderDispatchIsTheTable :
    [0x7F, 0x80, 0x7FF, 0x800, 0xFFFF, 0x10000, 0x1FFFFF, 0x200000, 0x3FFFFFF, 0x4000000, 0x7FFFFFFF,
      0x80000000].map (fun v : CodePoint => decodeEnc tables .run (.data v)) =
      [.enc1 0x7F, .enc2 0x80, .enc2 0x7FF, .enc3 0x800, .enc3 0xFFFF, .enc4 0x10000, .enc4 0x1FFFFF,
        .enc5 0x200000, .enc5 0x3FFFFFF, .enc6 0x4000000, .enc6 0x7FFFFFFF, .encToolarge 0x80000000] := by decide

theorem test_witness_DecoderDispatchIsTheTable :
    [0x7F, 0xC0, 0xDF, 0xE0, 0xEF, 0xF0, 0xF7, 0xF8, 0xFB, 0xFC, 0xFD, 0x80, 0xBF, 0xFE].map
        (fun b : Byte => decodeDec tables .awaitLead (.data b)) =
      [.decLead1 0x7F, .decLead2 0xC0, .decLead2 0xDF, .decLead3 0xE0, .decLead3 0xEF, .decLead4 0xF0,
        .decLead4 0xF7, .decLead5 0xF8, .decLead5 0xFB, .decLead6 0xFC, .decLead6 0xFD, .decBadlead10 0x80,
        .decBadlead10 0xBF, .decBadleadFeff 0xFE] ∧
    [0x80, 0xBF, 0x7F, 0xC0].map (fun b : Byte => decodeDec tables .awaitCont (.data b)) =
      [.decCont 0x80, .decCont 0xBF, .decBadcont0 0x7F, .decBadcont11 0xC0] := by decide

theorem test_witness_PatternCheckMakesPatternsDisjoint :
    tables.allPatternsDisjoint = true ∧ isLead tables 1 0xC2 = true ∧ isCont tables 0xC2 = false := by decide

/-- Both ends of the three ranges (spec/95_test_vectors.md 2.1). -/
theorem test_witness_EncodesClasses0To2 :
    State.reset.enc.st = .run ∧ encOutOf (exec (.enc1 0) State.reset) = some [.data 0] ∧
    encOutOf (exec (.enc2 0x7FF) State.reset) = some [.data 0xDF, .data 0xBF] ∧
    encOutOf (exec (.enc3 0x800) State.reset) = some [.data 0xE0, .data 0xA0, .data 0x80] := by decide

theorem test_witness_EncodesClasses3To5 :
    State.reset.enc.st = .run ∧
    encOutOf (exec (.enc4 0x1FFFFF) State.reset) = some [.data 0xF7, .data 0xBF, .data 0xBF, .data 0xBF] ∧
    encOutOf (exec (.enc5 0x200000) State.reset) =
      some [.data 0xF8, .data 0x88, .data 0x80, .data 0x80, .data 0x80] ∧
    encOutOf (exec (.enc6 0x4000000) State.reset) =
      some [.data 0xFC, .data 0x84, .data 0x80, .data 0x80, .data 0x80, .data 0x80] := by decide

theorem test_witness_TooLargeCodePointRaises :
    State.reset.enc.st = .run ∧
    encOf (exec (.encToolarge 0xFFFFFFFF) State.reset) =
      some ⟨.failed, .codePointTooLarge 0xFFFFFFFF 0x7FFFFFFF⟩ := by decide

theorem test_witness_FailedUnitsDiscardData : encFailed.enc.st = .failed ∧ decFailed.dec.st = .failed := by decide

theorem test_witness_EncoderEndDeliversTheResult : State.reset.enc.st = .run ∧ encFailed.enc.st = .failed := by decide

theorem test_witness_OneByteSymbolDecodes :
    State.reset.dec.st = .awaitLead ∧ decOutOf (exec (.decLead1 0x7F) State.reset) = some [.data 0x7F] := by decide

/-- Both ends of the five ranges. -/
theorem test_witness_LeadBytesBeginSymbols :
    State.reset.dec.st = .awaitLead ∧
    decOf (exec (.decLead2 0xC0) State.reset) = some ⟨.awaitCont, 1, 0, .none⟩ ∧
    decOf (exec (.decLead2 0xDF) State.reset) = some ⟨.awaitCont, 1, 0x1F, .none⟩ ∧
    decOf (exec (.decLead3 0xEF) State.reset) = some ⟨.awaitCont, 2, 0xF, .none⟩ ∧
    decOf (exec (.decLead4 0xF0) State.reset) = some ⟨.awaitCont, 3, 0, .none⟩ ∧
    decOf (exec (.decLead5 0xFB) State.reset) = some ⟨.awaitCont, 4, 3, .none⟩ ∧
    decOf (exec (.decLead6 0xFC) State.reset) = some ⟨.awaitCont, 5, 0, .none⟩ := by decide

theorem test_witness_BadLeadBytesRaise :
    State.reset.dec.st = .awaitLead ∧
    decOf (exec (.decBadlead10 0xBF) State.reset) = some ⟨.failed, 0, 0, .invalidLeadByte 0xBF⟩ ∧
    decOf (exec (.decBadleadFeff 0xFE) State.reset) = some ⟨.failed, 0, 0, .invalidLeadByte 0xFE⟩ := by decide

/-- `rem` at both ends of 1 to 5. -/
theorem test_witness_ContinuationBytesAccumulate :
    (decAt .awaitCont 5 1 .none).dec.st = .awaitCont ∧ (1 < (5 : Fin 6).val ∧ (4 : Fin 6).val = (5 : Fin 6).val - 1) ∧
    decOf (exec (.decCont 0xBF) (decAt .awaitCont 5 1 .none)) = some ⟨.awaitCont, 4, 0x7F, .none⟩ ∧
    decOutOf (exec (.decCont 0x80) (decAt .awaitCont 1 0 .none)) = some [.data 0] := by decide

theorem test_witness_BadContinuationBytesRaise :
    (decAt .awaitCont 1 3 .none).dec.st = .awaitCont ∧
    decOf (exec (.decBadcont0 0x7F) (decAt .awaitCont 1 3 .none)) =
      some ⟨.failed, 0, 0, .invalidContinuationByte 0x7F⟩ ∧
    decOf (exec (.decBadcont11 0xC0) (decAt .awaitCont 1 3 .none)) =
      some ⟨.failed, 0, 0, .invalidContinuationByte 0xC0⟩ := by decide

theorem test_witness_DecoderEndDeliversTheResult :
    State.reset.dec.st = .awaitLead ∧ (decAt .awaitCont 5 1 .none).dec.st = .awaitCont ∧
    decFailed.dec.st = .failed := by decide

theorem test_witness_SymbolsDecodeToTheirFields :
    State.reset.dec.st = .awaitLead ∧
    decOutOf (exec (.seq6 1 63 63 63 63 63) State.reset) = some [.data 0x7FFFFFFF] := by decide

/-- spec/95_test_vectors.md 2.7: `E2 82 E2` fails on the lead byte. -/
theorem test_witness_SymbolsOutOfPlaceAreNotDecoded :
    (symbolBytes (.seq3 2 2 44)).head? = some 0xE2 ∧ (decAt .awaitCont 1 0x82 .none).dec.st = .awaitCont ∧
    decOf (exec (.seq3 2 2 44) (decAt .awaitCont 1 0x82 .none)) =
      some ⟨.failed, 0, 0, .invalidContinuationByte 0xE2⟩ ∧
    decFailed.dec.st = .failed ∧ after (exec (.seq3 2 2 44) decFailed) = some decFailed := by decide

theorem test_witness_StepsOfSymbolBytesAreTheSymbol :
    symbolBytes (.seq2 16 22) ≠ [] ∧
    ({ State.reset with decIn := [.data 0xD0, .data 0x96, .endMark] } : State).decIn =
      (symbolBytes (.seq2 16 22)).map .data ++ [.endMark] := by decide

theorem test_witness_EmittedSymbolCarriesTheCodePoint :
    classOf tables 0x7FFFFFFF = some 5 ∧ symbolCodePoint (.seq6 1 63 63 63 63 63) = 0x7FFFFFFF ∧
    symbolBytes (.seq6 1 63 63 63 63 63) = encSym tables 5 0x7FFFFFFF := by decide

/-- A case that is selected, and one that no element selects. -/
theorem test_witness_CasesRunExactlyWhereSelected :
    decodeEnc tables State.reset.enc.st (.data 0x74) = .enc1 0x74 ∧
    decodeDec tables State.reset.dec.st .endMark = .decEndOk ∧ symbolBytes (.seq1 0) ≠ [] ∧
    symbolBytes .decEndFail = [] ∧ isNotSelected (exec .decEndFail State.reset) = true := by decide

theorem test_witness_StepRunsTheDecodedCase :
    encOutOf (step { State.reset with encIn := [.data 0x74] }) = some [.data 0x74] ∧
    decOutOf (step { State.reset with decIn := [.data 0x74] }) = some [.data 0x74] ∧
    encOutOf (step { State.reset with encIn := [.data 0x74], decIn := [.endMark], sched := ⟨.enc, 1, 0⟩ }) =
      some [.data 0x74] ∧
    decOutOf (step { State.reset with encIn := [.data 0x74], decIn := [.endMark], sched := ⟨.dec, 1, 0⟩ }) =
      some [.done .ok] := by decide

theorem test_witness_IdleUnitsKeepTheirState : State.reset.encIn = [] ∧ State.reset.decIn = [] := by decide

theorem test_witness_StepTakesOneElement :
    (after (step { State.reset with encIn := [.data 0x74, .endMark] })).map (·.encIn) = some [.endMark] := by decide

theorem test_witness_BurstsEnd :
    ({ State.reset with encIn := [.endMark], decIn := [.endMark] } : State).sched.quota < 1 ∧
    ({ State.reset with encIn := [.endMark, .endMark], decIn := [.endMark, .endMark], sched := ⟨.dec, 1, 0⟩ } :
      State).sched.quota < 2 := by decide

theorem test_witness_UnitsDoNotTouchEachOther :
    (after (stepUnit .enc { State.reset with encIn := [.endMark] })).isSome = true ∧
    (after (stepUnit .dec { State.reset with decIn := [.endMark] })).isSome = true := by decide

theorem test_witness_UnitStepsCommute :
    encOutOf (stepUnit .enc { State.reset with encIn := [.endMark], decIn := [.data 0xE2] }) = some [.done .ok] ∧
    decOf (stepUnit .dec { State.reset with encIn := [.endMark], decIn := [.data 0xE2] }) =
      some ⟨.awaitCont, 2, 2, .none⟩ := by decide

theorem test_witness_InterleavingDoesNotMatter :
    ({ State.reset with encIn := [.endMark], decIn := [.endMark] } : State).encIn.length +
      ({ State.reset with encIn := [.endMark], decIn := [.endMark] } : State).decIn.length ≤ 2 := by decide

theorem test_witness_PaceOfTheHostDoesNotMatter :
    (after (stepUnit .enc { State.reset with encIn := [.endMark], encOut := [.data 0x74] })).isSome = true ∧
    (hostTakeEnc { State.reset with encIn := [.endMark], encOut := [.data 0x74] }).map (·.1) = some (.data 0x74) ∧
    (after (stepUnit .dec { State.reset with decIn := [.endMark], decOut := [.data 0x74] })).isSome = true ∧
    (hostTakeDec { State.reset with decIn := [.endMark], decOut := [.data 0x74] }).map (·.1) = some (.data 0x74) := by
  decide

theorem test_witness_FailedIsEnteredOnlyByAnError :
    encOf (stepUnit .enc { State.reset with encIn := [.data 0x80000000] }) = some encFailed.enc ∧
    decOf (stepUnit .dec { State.reset with decIn := [.data 0x80] }) = some ⟨.failed, 0, 0, .invalidLeadByte 0x80⟩ ∧
    decOf (stepUnit .dec { decAt .awaitCont 1 3 .none with decIn := [.data 0x28] }) = some decFailed.dec := by decide

theorem test_witness_FailedIsLeftOnlyByEnd :
    encFailed.enc.st = .failed ∧ encOf (stepUnit .enc { encFailed with encIn := [.data 0x41] }) = some encFailed.enc ∧
    encOf (stepUnit .enc { encFailed with encIn := [.endMark] }) = some EncUnit.reset ∧
    decFailed.dec.st = .failed ∧ decOf (stepUnit .dec { decFailed with decIn := [.data 0x41] }) = some decFailed.dec ∧
    decOf (stepUnit .dec { decFailed with decIn := [.endMark] }) = some DecUnit.reset := by decide

theorem test_witness_EndReturnsTheUnitToReset :
    (after (stepUnit .enc { State.reset with encIn := [.endMark] })).isSome = true ∧
    (after (stepUnit .enc { State.reset with encIn := [.data 0x74] })).isSome = true ∧
    (after (stepUnit .dec { State.reset with decIn := [.endMark] })).isSome = true ∧
    (after (stepUnit .dec { State.reset with decIn := [.data 0x74] })).isSome = true := by decide

theorem test_witness_RoundTripLaw :
    ([0, 0x1FFFFF, 0x7FFFFFFF] : List CodePoint).all (· ≤ 0x7FFFFFFF) = true ∧
    valueOf (encodeSeq printedTables [0, 0x1FFFFF]) = some [0x00, 0xF8, 0x87, 0xBF, 0xBF, 0xBF] := by decide

/-- spec/95_test_vectors.md 2.4. -/
theorem test_witness_FirstTooLargeCodePointDecides :
    ([0x41] : List CodePoint).all (· ≤ 0x7FFFFFFF) = true ∧ (0x7FFFFFFF : CodePoint) < 0x80000000 ∧
    errorOf (encodeSeq tables [0x41, 0x80000000, 0x42]) = some (.codePointTooLarge 0x80000000 0x7FFFFFFF) := by decide

theorem test_witness_LengthClassBoundaries :
    (valueOf (encodeOne tables (tables.ceil[4] + 1))).map List.length = some 6 ∧
    (valueOf (encodeOne printedTables (printedTables.ceil[3] + 1))).map List.length = some 5 := by decide

/-- Values just below, at both ends of and just above the range. -/
theorem test_witness_PrintedCeilingChangesOneRange :
    (valueOf (encodeOne printedTables 0x1FFFF)).map List.length = some 4 ∧
    (valueOf (encodeOne printedTables 0x20000)).map List.length = some 5 ∧
    (valueOf (encodeOne printedTables 0x1FFFFF)).map List.length = some 5 ∧
    (valueOf (encodeOne tables 0x1FFFFF)).map List.length = some 4 ∧
    (valueOf (encodeOne tables 0x200000)).map List.length = some 5 := by decide

theorem test_witness_DecodeFailsAsStated :
    errorOf (decodeSeq tables [0xC0]) = some .unexpectedEnd ∧ errorOf (decodeSeq tables [0xFD]) = some .unexpectedEnd ∧
    errorOf (decodeSeq tables [0xC0, 0x7F]) = some (.invalidContinuationByte 0x7F) ∧
    errorOf (decodeSeq tables [0xDF, 0xC0]) = some (.invalidContinuationByte 0xC0) := by decide

theorem test_witness_SizesAreBounded :
    valueOf (encodeSeq tables [0x7FFFFFFF]) = some [0xFD, 0xBF, 0xBF, 0xBF, 0xBF, 0xBF] ∧
    valueOf (decodeSeq tables [0xFC, 0x80, 0x80, 0x80, 0x80, 0x80]) = some [0] := by decide

/-- An overlong form, and a shortest one. -/
theorem test_witness_EncodeOfDecodeIsShortest :
    valueOf (decodeSeq tables [0xC0, 0x80]) = some [0] ∧ valueOf (encodeSeq tables [0]) = some [0x00] ∧
    valueOf (decodeSeq tables [0xC2, 0x80]) = some [0x80] ∧ valueOf (encodeSeq tables [0x80]) = some [0xC2, 0x80] := by
  decide

theorem test_witness_WellFormedSymbolsAlwaysDecode :
    symbolBytes (.seq5 0 0 0 0 0) ≠ [] ∧
    valueOf (decodeOne tables [0xF8, 0x80, 0x80, 0x80, 0x80, 0x41]) = some (0, [0x41]) := by decide

theorem test_witness_LaterBytesDoNotChangeAnError :
    errorOf (decodeSeq tables [0xC3, 0x28]) = some (.invalidContinuationByte 0x28) ∧
    ErrorRecord.invalidContinuationByte 0x28 ≠ .unexpectedEnd := by decide

theorem test_witness_DecodeAnswersAreLegal :
    valueOf (decodeSeq tables [0xFD, 0xBF, 0xBF, 0xBF, 0xBF, 0xBF]) = some [0x7FFFFFFF] ∧
    errorOf (decodeSeq tables [0xC3, 0xFF]) = some (.invalidContinuationByte 0xFF) ∧
    errorOf (decodeSeq tables [0xFE]) = some (.invalidLeadByte 0xFE) := by decide

theorem test_witness_TheTwoLevelsAgree :
    (({ State.reset with encIn := [.data 0x74, .endMark, .endMark] } : State).enc = EncUnit.reset ∧
      ({ State.reset with encIn := [.data 0x74, .endMark, .endMark] } : State).encIn =
        callElems [0x74] ++ [.endMark] ∧
      valueOf (encodeSeq tables [0x74]) = some [0x74] ∧
      errorOf (encodeSeq tables [0x80000000]) = some (.codePointTooLarge 0x80000000 0x7FFFFFFF)) ∧
    (({ State.reset with decIn := [.data 0x74, .endMark] } : State).dec = DecUnit.reset ∧
      ({ State.reset with decIn := [.data 0x74, .endMark] } : State).decIn = callElems [0x74] ++ [] ∧
      valueOf (decodeSeq tables [0x74]) = some [0x74] ∧
      errorOf (decodeSeq tables [0xE5]) = some .unexpectedEnd) := by decide

end Sys2Proof.Tests
end

section
/-! PROOFS of the statements of 00_scope.md: what the pattern check R7 (d) gives for the match of a byte with a
pattern. -/

namespace Sys2Proof.Machine

theorem hasPattern_iff {b mark mask : Byte} : hasPattern b mark mask = true ↔ b &&& mask = mark := by
  simp [hasPattern]

/-- A byte with both patterns agrees with each marker at the positions both masks fix, so the markers do not
differ there. -/
theorem not_patternsDisjoint_of_hasPattern {b mark₁ mask₁ mark₂ mask₂ : Byte}
    (h₁ : hasPattern b mark₁ mask₁ = true) (h₂ : hasPattern b mark₂ mask₂ = true) :
    ¬ Config.patternsDisjoint mark₁ mask₁ mark₂ mask₂ = true := by
  obtain rfl := hasPattern_iff.mp h₁
  obtain rfl := hasPattern_iff.mp h₂
  have agree : (b &&& mask₁ ^^^ b &&& mask₂) &&& mask₁ &&& mask₂ = 0#8 := by
    ext i hi
    cases hm₁ : mask₁[i] <;> simp [hm₁]
  simp [Config.patternsDisjoint, agree]

/-- R7 (d), the part about two lead patterns. -/
theorem patternsDisjoint_leads {cfg : Config} (h : cfg.allPatternsDisjoint = true) {m n : Fin 6} (hmn : m < n) :
    Config.patternsDisjoint cfg.leadMark[m] cfg.leadMask[m] cfg.leadMark[n] cfg.leadMask[n] = true :=
  (of_decide_eq_true h).1 m n hmn

/-- R7 (d), the part about a lead pattern and the continuation pattern. -/
theorem patternsDisjoint_lead_cont {cfg : Config} (h : cfg.allPatternsDisjoint = true) (n : Fin 6) :
    Config.patternsDisjoint cfg.leadMark[n] cfg.leadMask[n] cfg.contMark cfg.contMask = true :=
  (of_decide_eq_true h).2 n

theorem not_isLead_and_isLead_of_lt {cfg : Config} {b : Byte} {m n : Fin 6} (h : cfg.allPatternsDisjoint = true)
    (hmn : m < n) : ¬ (isLead cfg m b = true ∧ isLead cfg n b = true) :=
  fun ⟨hm, hn⟩ => not_patternsDisjoint_of_hasPattern hm hn (patternsDisjoint_leads h hmn)

theorem isCont_eq_false_of_isLead {cfg : Config} {b : Byte} {n : Fin 6} (h : cfg.allPatternsDisjoint = true)
    (hn : isLead cfg n b = true) : isCont cfg b = false :=
  Bool.eq_false_iff.mpr fun hc => not_patternsDisjoint_of_hasPattern hn hc (patternsDisjoint_lead_cont h n)

theorem isLead_unique {cfg : Config} {b : Byte} {m n : Fin 6} (h : cfg.allPatternsDisjoint = true)
    (hm : isLead cfg m b = true) (hn : isLead cfg n b = true) : m = n := by
  obtain hlt | heq | hgt := lt_trichotomy m n
  · exact absurd ⟨hm, hn⟩ (not_isLead_and_isLead_of_lt h hlt)
  · exact heq
  · exact absurd ⟨hn, hm⟩ (not_isLead_and_isLead_of_lt h hgt)

/-- Settles O10: a second pattern on a byte would make it agree with two markers that the check finds different. -/
theorem patternCheckMakesPatternsDisjoint : Obligations.PatternCheckMakesPatternsDisjoint := by
  intro cfg b m n h hn
  exact ⟨isCont_eq_false_of_isLead h hn, fun hm => isLead_unique h hm hn⟩

end Sys2Proof.Machine
end

section
/-! PROOFS of the statements of 10_state.md: the invariant of the two units and of their outputs, the frame of a
unit's step, and what `END` leaves. -/

namespace Sys2Proof.Machine

/-! ### A unit's step, taken apart -/

/-- Everything a step of the encoder can be: nothing, or the transition of its head element. -/
theorem stepUnit_enc_cases {s t : State} (h : stepUnit .enc s = .next t) :
    (s.encIn = [] ∧ t = s) ∨
    ∃ e rest, s.encIn = e :: rest ∧ t = { s with
      enc := (encTrans s.enc e).1, encIn := rest, encOut := s.encOut ++ (encTrans s.enc e).2 } := by
  cases hin : s.encIn with
  | nil => rw [stepUnit_enc, hin] at h; cases h; exact .inl ⟨rfl, rfl⟩
  | cons e rest => rw [stepUnit_enc_cons hin] at h; cases h; exact .inr ⟨e, rest, rfl, rfl⟩

/-- Everything a step of the decoder can be: nothing, or the transition of its head element. -/
theorem stepUnit_dec_cases {s t : State} (h : stepUnit .dec s = .next t) :
    (s.decIn = [] ∧ t = s) ∨
    ∃ e rest, s.decIn = e :: rest ∧ t = { s with
      dec := (decTrans s.dec e).1, decIn := rest, decOut := s.decOut ++ (decTrans s.dec e).2 } := by
  cases hin : s.decIn with
  | nil => rw [stepUnit_dec, hin] at h; cases h; exact .inl ⟨rfl, rfl⟩
  | cons e rest => rw [stepUnit_dec_cons hin] at h; cases h; exact .inr ⟨e, rest, rfl, rfl⟩

/-! ### The encoder's part of the invariant -/

/-- A legal encoder is in its reset state, or failed with an error it can record. -/
theorem EncUnit.legal_iff {u : EncUnit} :
    u.Legal ↔ u = EncUnit.reset ∨ ∃ e, isEncodeError e = true ∧ u = { st := .failed, err := e } := by
  constructor
  · obtain ⟨st, err⟩ := u
    rintro ⟨hst, herr⟩
    cases st with
    | run => exact .inl (by simpa [EncUnit.reset] using hst)
    | failed => exact .inr ⟨err, herr.resolve_left (hst.1 rfl), rfl⟩
  · rintro (rfl | ⟨e, he, rfl⟩)
    · decide
    · exact ⟨by cases e <;> simp [isEncodeError] at he ⊢, .inr he⟩

/-- What has no class is above the range (40_encoder.md R128). -/
theorem isEncodeError_of_tooLarge {v : CodePoint} (h : classOf tables v = none) :
    isEncodeError (.codePointTooLarge v tables.maxCp) = true := by
  have hv : tables.maxCp < v := classOf_eq_none.1 h 5
  simp [isEncodeError, hv]

theorem leadClass_leadByteOf {n : Fin 6} {v : CodePoint} (h : v ≤ tables.ceil[n]) :
    leadClass tables (leadByteOf tables n v) = some n := by
  rcases class_cases n with rfl | rfl | rfl | rfl | rfl | rfl
  · rw [leadByteOf_class0 h, (lead1_fields _).1]
  · rw [leadByteOf_class1 h, (lead2_fields _).1]
  · rw [leadByteOf_class2 h, (lead3_fields _).1]
  · rw [leadByteOf_class3 h, (lead4_fields _).1]
  · rw [leadByteOf_class4 h, (lead5_fields _).1]
  · rw [leadByteOf_class5 h, (lead6_fields _).1]

/-- A lead byte may be emitted when it is not an overlong `C0` or `C1`, that is, when it has a payload of at least 2
if it is of class 1. -/
theorem encOutLegal_lead {b : Byte} {n : Fin 6} (h : leadClass tables b = some n)
    (h1 : n = 1 → 2 ≤ (b.setWidth 5).toNat) : encOutLegal (.data b) = true := by
  revert b n; decide

theorem encOutLegal_contByte (g : BitVec 6) : encOutLegal (.data (contByte g)) = true := by
  revert g; decide

/-- A code point of class 1 is above `7F`, so its lead byte is neither `C0` nor `C1` (40_encoder.md R123). -/
theorem leadByteOf_class1_payload {v : CodePoint} (h : classOf tables v = some 1) :
    2 ≤ ((leadByteOf tables 1 v).setWidth 5).toNat := by
  obtain ⟨hle, hgt⟩ := classOf_eq_some h
  have hle : v.toNat ≤ 0x7FF := hle
  have hgt : 0x7F < v.toNat := hgt 0 (by decide)
  rw [leadByteOf_class1 hle, (lead2_fields _).2.1]
  simp [Nat.shiftRight_eq_div_pow]
  omega

/-- Every byte of a symbol of the code point's own class may be emitted (40_encoder.md R131). -/
theorem encOutLegal_encSym {n : Fin 6} {v : CodePoint} (h : classOf tables v = some n) :
    ∀ b ∈ encSym tables n v, encOutLegal (.data b) = true := by
  simp only [encSym, List.forall_mem_cons, List.forall_mem_map]
  refine ⟨encOutLegal_lead (leadClass_leadByteOf (classOf_eq_some h).1) ?_, fun i _ => ?_⟩
  · rintro rfl
    exact leadByteOf_class1_payload h
  · rw [contByteOf_eq_contByte]
    exact encOutLegal_contByte _

/-- Every element keeps the encoder legal and makes it append legal output only. -/
theorem encTrans_legal {u : EncUnit} (hu : u.Legal) (e : InElem CodePoint) :
    (encTrans u e).1.Legal ∧ ∀ x ∈ (encTrans u e).2, encOutLegal x = true := by
  obtain rfl | ⟨err, he, rfl⟩ := EncUnit.legal_iff.1 hu
  · cases e with
    | endMark => exact ⟨hu, by simp [encTrans, encResult, encOutLegal]⟩
    | data v =>
      cases hc : classOf tables v with
      | some n => exact ⟨by simpa [encTrans, hc] using hu, by simpa [encTrans, hc] using encOutLegal_encSym hc⟩
      | none =>
        exact ⟨EncUnit.legal_iff.2 (.inr ⟨_, isEncodeError_of_tooLarge hc, by simp [encTrans, hc]⟩),
          by simp [encTrans, hc]⟩
  · cases e with
    | endMark =>
      exact ⟨EncUnit.legal_iff.2 (.inl rfl), by simpa [encTrans, encResult, encOutLegal] using he⟩
    | data v => exact ⟨hu, by simp [encTrans]⟩

/-! ### The decoder's part of the invariant -/

/-- The bits assembled so far, `r` continuation bytes still to come, are those of some class (10_state.md R35 (c)). -/
def AccFits (r : Nat) (acc : CodePoint) : Prop :=
  ∃ n : Fin 6, r ≤ n.val ∧ acc.toNat < 2 ^ (tables.leadBits[n] + tables.contBits * (n.val - r))

/-- A lead byte of class `n` gives the first bits of a symbol of that class. -/
theorem accFits_leadPayload {b : Byte} {n : Fin 6} (h : leadClass tables b = some n) :
    AccFits n.val (leadPayload tables n b) := by
  have hlt : (leadPayload tables n b).toNat < 2 ^ tables.leadBits[n] := by
    revert b n; decide
  exact ⟨n, le_rfl, by simpa using hlt⟩

theorem accumulate_lt {acc : CodePoint} {b : Byte} {k : Nat} (h : acc.toNat < 2 ^ k) :
    (accumulate tables acc b).toNat < 2 ^ (k + 6) := by
  have hpow : 2 ^ (k + 6) = 2 ^ k * 64 := pow_add 2 k 6
  have hacc : (acc <<< 6).toNat < 2 ^ (k + 6) := by
    rw [BitVec.toNat_shiftLeft, Nat.shiftLeft_eq]
    exact (Nat.mod_le _ _).trans_lt (by omega)
  have hpay : ((b &&& 0x3F#8).setWidth 32).toNat < 2 ^ (k + 6) := by
    have h6 : ∀ b : Byte, ((b &&& 0x3F#8).setWidth 32).toNat < 64 := by decide
    have := h6 b
    omega
  rw [accumulate_tables, BitVec.toNat_or]
  exact Nat.or_lt_two_pow hacc hpay

/-- A continuation byte adds six bits, with one fewer to come. -/
theorem accFits_accumulate {r : Nat} {acc : CodePoint} (b : Byte) (h : AccFits (r + 1) acc) :
    AccFits r (accumulate tables acc b) := by
  obtain ⟨n, hn, hacc⟩ := h
  have hbits : tables.leadBits[n] + tables.contBits * (n.val - (r + 1)) + 6 =
      tables.leadBits[n] + tables.contBits * (n.val - r) := by
    simp only [show tables.contBits = 6 from rfl]
    omega
  exact ⟨n, by omega, hbits ▸ accumulate_lt hacc⟩

/-- The payload bits of a whole symbol of any class. -/
theorem symbolBits_le (n : Fin 6) : tables.leadBits[n] + tables.contBits * (n.val - 0) ≤ 31 := by
  revert n; decide

/-- A whole symbol of any class is a code point of the range (41_decoder.md R171). -/
theorem decOutLegal_of_accFits {v : CodePoint} (h : AccFits 0 v) : decOutLegal (.data v) = true := by
  obtain ⟨n, -, hv⟩ := h
  have hlt : v.toNat < 2 ^ 31 := hv.trans_le (Nat.pow_le_pow_right (by decide) (symbolBits_le n))
  have hle : v.toNat ≤ tables.maxCp.toNat := Nat.le_of_lt_succ hlt
  simpa [decOutLegal, BitVec.le_def] using hle

theorem ne_none_of_isStoredDecodeError {e : ErrorRecord} (h : isStoredDecodeError e = true) : e ≠ .none := by
  rintro rfl
  cases h

/-- A legal decoder is in its reset state, within a symbol, or failed with an error it can record. -/
theorem DecUnit.legal_iff {u : DecUnit} :
    u.Legal ↔ u = DecUnit.reset ∨ (∃ r acc, r ≠ 0 ∧ AccFits r.val acc ∧ u = within r acc) ∨
      ∃ e, isStoredDecodeError e = true ∧ u = { st := .failed, rem := 0, acc := 0, err := e } := by
  constructor
  · obtain ⟨st, rem, acc, err⟩ := u
    rintro ⟨hrem, herr, hstored, hfits, hacc⟩
    cases st with
    | awaitLead => exact .inl (by simp_all [DecUnit.reset])
    | awaitCont =>
      obtain rfl : err = .none := by simpa using herr
      exact .inr (.inl ⟨rem, acc, hrem.1 rfl, hfits rfl, rfl⟩)
    | failed =>
      obtain rfl : rem = 0 := by simpa using hrem
      obtain rfl : acc = 0 := hacc nofun
      exact .inr (.inr ⟨err, hstored.resolve_left (herr.1 rfl), rfl⟩)
  · rintro (rfl | ⟨r, acc, hr, hfits, rfl⟩ | ⟨e, he, rfl⟩)
    · decide
    · exact ⟨by simp [within, hr], by simp [within], .inl rfl, fun _ => hfits, fun h => absurd rfl h⟩
    · exact ⟨by simp, by simp [ne_none_of_isStoredDecodeError he], .inr he, nofun, fun _ => rfl⟩

theorem byteTrans_reset_ascii {b : Byte} (h : leadClass tables b = some 0) :
    byteTrans DecUnit.reset b = (DecUnit.reset, [.data (leadPayload tables 0 b)]) := by
  simp [byteTrans, h]

theorem byteTrans_reset_lead {b : Byte} {n : Fin 6} (h : leadClass tables b = some n) (hn : n ≠ 0) :
    byteTrans DecUnit.reset b = (within n (leadPayload tables n b), []) := by
  simp [byteTrans, h, hn, within]

theorem byteTrans_reset_badLead {b : Byte} (h : leadClass tables b = none) :
    byteTrans DecUnit.reset b = ({ st := .failed, rem := 0, acc := 0, err := .invalidLeadByte b }, []) := by
  simp [byteTrans, h]

/-- What a transition of the decoder gives when it is as the invariant asks: legal fields, legal output. -/
def LegalTrans (p : DecUnit × List (OutElem CodePoint)) : Prop :=
  p.1.Legal ∧ ∀ x ∈ p.2, decOutLegal x = true

theorem legalTrans_emit {v : CodePoint} (h : AccFits 0 v) : LegalTrans (DecUnit.reset, [.data v]) :=
  ⟨DecUnit.legal_iff.2 (.inl rfl), by simpa using decOutLegal_of_accFits h⟩

theorem legalTrans_within {r : Fin 6} {acc : CodePoint} (hr : r ≠ 0) (h : AccFits r.val acc) :
    LegalTrans (within r acc, []) :=
  ⟨DecUnit.legal_iff.2 (.inr (.inl ⟨r, acc, hr, h, rfl⟩)), by simp⟩

theorem legalTrans_failed {e : ErrorRecord} (h : isStoredDecodeError e = true) :
    LegalTrans ({ st := .failed, rem := 0, acc := 0, err := e }, []) :=
  ⟨DecUnit.legal_iff.2 (.inr (.inr ⟨e, h, rfl⟩)), by simp⟩

theorem legalTrans_byteTrans_reset (b : Byte) : LegalTrans (byteTrans DecUnit.reset b) := by
  cases hc : leadClass tables b with
  | none =>
    rw [byteTrans_reset_badLead hc]
    exact legalTrans_failed (by simp [isStoredDecodeError, hc])
  | some n =>
    have hfits := accFits_leadPayload hc
    by_cases hn : n = 0
    · subst hn
      rw [byteTrans_reset_ascii hc]
      exact legalTrans_emit hfits
    · rw [byteTrans_reset_lead hc hn]
      exact legalTrans_within hn hfits

theorem legalTrans_byteTrans_within {r : Fin 6} {acc : CodePoint} (hr : r ≠ 0) (h : AccFits r.val acc) (b : Byte) :
    LegalTrans (byteTrans (within r acc) b) := by
  cases hc : isCont tables b with
  | false =>
    rw [byteTrans_within_bad hc]
    exact legalTrans_failed (by simp [isStoredDecodeError, hc])
  | true =>
    obtain ⟨k, rfl⟩ := Fin.exists_succ_eq.2 hr
    have hfits : AccFits k.val (accumulate tables acc b) := accFits_accumulate b (by simpa using h)
    by_cases hk : k = 0
    · subst hk
      rw [show Fin.succ (0 : Fin 5) = 1 from rfl, byteTrans_within_last hc]
      exact legalTrans_emit hfits
    · have hk' : k.castSucc ≠ 0 := by simpa using hk
      rw [byteTrans_within_more (r' := k.castSucc) (by simp) hk' hc]
      exact legalTrans_within hk' hfits

theorem legalTrans_byteTrans {u : DecUnit} (hu : u.Legal) (b : Byte) : LegalTrans (byteTrans u b) := by
  obtain rfl | ⟨r, acc, hr, hfits, rfl⟩ | ⟨e, he, rfl⟩ := DecUnit.legal_iff.1 hu
  · exact legalTrans_byteTrans_reset b
  · exact legalTrans_byteTrans_within hr hfits b
  · exact legalTrans_failed he

/-- The result `END` delivers is `OK` or an error the decoder can deliver (60_exceptions.md R220). -/
theorem decOutLegal_decResult {u : DecUnit} (hu : u.Legal) : decOutLegal (.done (decResult u)) = true := by
  obtain rfl | ⟨r, acc, -, -, rfl⟩ | ⟨e, he, rfl⟩ := DecUnit.legal_iff.1 hu
  · rfl
  · rfl
  · simp [decResult, decOutLegal, isDecodeError, he]

/-- Every element keeps the decoder legal and makes it append legal output only. -/
theorem legalTrans_decTrans {u : DecUnit} (hu : u.Legal) (e : InElem Byte) : LegalTrans (decTrans u e) := by
  cases e with
  | endMark => exact ⟨DecUnit.legal_iff.2 (.inl rfl), by simpa [decTrans] using decOutLegal_decResult hu⟩
  | data b => exact legalTrans_byteTrans hu b

/-! ### The invariant -/

/-- Settles O2: both units are in their reset state and nothing was appended. -/
theorem resetMeetsTheInvariant : Obligations.ResetMeetsTheInvariant :=
  ⟨EncUnit.legal_iff.2 (.inl rfl), DecUnit.legal_iff.2 (.inl rfl), by simp [State.reset], by simp [State.reset]⟩

theorem stepUnit_enc_keeps_inv {s t : State} (hs : s.Inv) (h : stepUnit .enc s = .next t) : t.Inv := by
  obtain ⟨-, rfl⟩ | ⟨e, rest, -, rfl⟩ := stepUnit_enc_cases h
  · exact hs
  · obtain ⟨henc, hdec, hencOut, hdecOut⟩ := hs
    obtain ⟨hlegal, hemit⟩ := encTrans_legal henc e
    exact ⟨hlegal, hdec, List.forall_mem_append.2 ⟨hencOut, hemit⟩, hdecOut⟩

theorem stepUnit_dec_keeps_inv {s t : State} (hs : s.Inv) (h : stepUnit .dec s = .next t) : t.Inv := by
  obtain ⟨-, rfl⟩ | ⟨e, rest, -, rfl⟩ := stepUnit_dec_cases h
  · exact hs
  · obtain ⟨henc, hdec, hencOut, hdecOut⟩ := hs
    obtain ⟨hlegal, hemit⟩ := legalTrans_decTrans hdec e
    exact ⟨henc, hlegal, hencOut, List.forall_mem_append.2 ⟨hdecOut, hemit⟩⟩

/-- Settles O3: a step is nothing or the transition of one unit, which keeps that unit legal and emits legal output;
the turn field is no part of the invariant. -/
theorem stepKeepsTheInvariant : Obligations.StepKeepsTheInvariant := by
  intro s t hs h
  obtain ⟨-, -, hstep⟩ | ⟨-, c, hstep⟩ | ⟨-, c, hstep⟩ := step_cases s
  · rw [hstep] at h
    cases h
    exact hs
  · exact stepUnit_enc_keeps_inv (s := { s with sched := c }) hs (hstep ▸ h)
  · exact stepUnit_dec_keeps_inv (s := { s with sched := c }) hs (hstep ▸ h)

/-! ### The frame of a unit's step, and `END` -/

/-- Settles O33: a unit's transition is an update of its own fields and its own streams. -/
theorem unitsDoNotTouchEachOther : Obligations.UnitsDoNotTouchEachOther := by
  refine fun s t => ⟨fun h => ?_, fun h => ?_⟩
  · obtain ⟨-, rfl⟩ | ⟨e, rest, -, rfl⟩ := stepUnit_enc_cases h <;> exact ⟨rfl, rfl, rfl, rfl⟩
  · obtain ⟨-, rfl⟩ | ⟨e, rest, -, rfl⟩ := stepUnit_dec_cases h <;> exact ⟨rfl, rfl, rfl, rfl⟩

theorem encTrans_data_emits_data (u : EncUnit) (v : CodePoint) :
    ∃ bs : List Byte, (encTrans u (.data v)).2 = bs.map .data := by
  obtain ⟨st, err⟩ := u
  cases st with
  | failed => exact ⟨[], rfl⟩
  | run =>
    cases hc : classOf tables v with
    | some n => exact ⟨encSym tables n v, by simp [encTrans, hc]⟩
    | none => exact ⟨[], by simp [encTrans, hc]⟩

theorem byteTrans_emits_data (u : DecUnit) (b : Byte) :
    ∃ vs : List CodePoint, (byteTrans u b).2 = vs.map .data := by
  obtain ⟨st, rem, acc, err⟩ := u
  cases st with
  | failed => exact ⟨[], rfl⟩
  | awaitLead =>
    cases hc : leadClass tables b with
    | none => exact ⟨[], by simp [byteTrans, hc]⟩
    | some n =>
      by_cases hn : n = 0
      · exact ⟨[leadPayload tables 0 b], by simp [byteTrans, hc, hn]⟩
      · exact ⟨[], by simp [byteTrans, hc, hn]⟩
  | awaitCont =>
    cases hc : isCont tables b with
    | false => exact ⟨[], by simp [byteTrans, hc]⟩
    | true =>
      by_cases hr : 1 < rem.val
      · exact ⟨[], by simp [byteTrans, hc, hr]⟩
      · exact ⟨[accumulate tables acc b], by simp [byteTrans, hc, hr]⟩

/-- Settles O39: by the element taken, `END` or data, from any state of the unit. -/
theorem endReturnsTheUnitToReset : Obligations.EndReturnsTheUnitToReset := by
  refine ⟨fun s t e rest hin h => ?_, fun s t e rest hin h => ?_⟩
  · rw [stepUnit_enc_cons hin] at h
    cases h
    cases e with
    | endMark => exact ⟨rfl, encResult s.enc, rfl⟩
    | data v =>
      obtain ⟨bs, hbs⟩ := encTrans_data_emits_data s.enc v
      exact ⟨bs, congrArg (s.encOut ++ ·) hbs⟩
  · rw [stepUnit_dec_cons hin] at h
    cases h
    cases e with
    | endMark => exact ⟨rfl, decResult s.dec, rfl⟩
    | data b =>
      obtain ⟨vs, hvs⟩ := byteTrans_emits_data s.dec b
      exact ⟨vs, congrArg (s.decOut ++ ·) hvs⟩

end Sys2Proof.Machine
end

section
/-! PROOFS of the statements of 20_memory.md: what a step takes from the streams and appends to them, what any run
leaves of the input, and how an output stream reads as results. -/

namespace Sys2Proof.Machine

/-! ### Units with nothing to consume -/

theorem stepUnit_enc_idle {s : State} (h : s.encIn = []) : stepUnit .enc s = .next s := by
  rw [stepUnit_enc, h]

theorem stepUnit_dec_idle {s : State} (h : s.decIn = []) : stepUnit .dec s = .next s := by
  rw [stepUnit_dec, h]

theorem step_idle {s : State} (he : s.encIn = []) (hd : s.decIn = []) : step s = .next s := by
  obtain ⟨-, -, h⟩ | ⟨hne, -⟩ | ⟨hne, -⟩ := step_cases s
  · exact h
  · exact absurd he hne
  · exact absurd hd hne

/-- Settles O28: the idle case of each unit's step, and of the choice between them. -/
theorem idleUnitsKeepTheirState : Obligations.IdleUnitsKeepTheirState :=
  fun _ => ⟨stepUnit_enc_idle, stepUnit_dec_idle, step_idle⟩

/-! ### What one step takes and appends -/

/-- Everything a step of the machine can be, as a transition: nothing, or one unit's transition of its head element
together with a choice of the turn field. -/
theorem step_trans_cases (s : State) :
    (s.encIn = [] ∧ s.decIn = [] ∧ step s = .next s) ∨
    (∃ c e rest, s.encIn = e :: rest ∧ step s = .next { s with
      enc := (encTrans s.enc e).1, encIn := rest, encOut := s.encOut ++ (encTrans s.enc e).2, sched := c }) ∨
    (∃ c e rest, s.decIn = e :: rest ∧ step s = .next { s with
      dec := (decTrans s.dec e).1, decIn := rest, decOut := s.decOut ++ (decTrans s.dec e).2, sched := c }) := by
  obtain hidle | ⟨hne, c, hstep⟩ | ⟨hne, c, hstep⟩ := step_cases s
  · exact .inl hidle
  · obtain ⟨e, rest, hin⟩ := List.exists_cons_of_ne_nil hne
    exact .inr (.inl ⟨c, e, rest, hin, hstep.trans (stepUnit_enc_cons hin)⟩)
  · obtain ⟨e, rest, hin⟩ := List.exists_cons_of_ne_nil hne
    exact .inr (.inr ⟨c, e, rest, hin, hstep.trans (stepUnit_dec_cons hin)⟩)

/-- A code point gives the bytes of its symbol, at most six (40_encoder.md R134); `END` gives one `DONE`. -/
theorem encTrans_length_le (u : EncUnit) (e : InElem CodePoint) : (encTrans u e).2.length ≤ 6 := by
  obtain ⟨st, err⟩ := u
  match e, st with
  | .endMark, _ => simp [encTrans]
  | .data _, .failed => simp [encTrans]
  | .data v, .run =>
    cases hc : classOf tables v with
    | none => simp [encTrans, hc]
    | some n => simp [encTrans, hc]

/-- A byte completes at most one code point (41_decoder.md R170). -/
theorem byteTrans_length_le (u : DecUnit) (b : Byte) : (byteTrans u b).2.length ≤ 1 := by
  obtain ⟨st, rem, acc, err⟩ := u
  cases st with
  | failed => simp [byteTrans]
  | awaitLead =>
    cases hc : leadClass tables b with
    | none => simp [byteTrans, hc]
    | some n => by_cases hn : n = 0 <;> simp [byteTrans, hc, hn]
  | awaitCont =>
    cases hc : isCont tables b with
    | false => simp [byteTrans, hc]
    | true => by_cases hr : 1 < rem.val <;> simp [byteTrans, hc, hr]

theorem decTrans_length_le (u : DecUnit) (e : InElem Byte) : (decTrans u e).2.length ≤ 1 := by
  cases e with
  | endMark => simp [decTrans]
  | data b => exact byteTrans_length_le u b

/-- Settles O30: by the three things a step can be, with the bounds on what a transition emits. -/
theorem stepTakesOneElement : Obligations.StepTakesOneElement := by
  intro s t h
  obtain ⟨he, hd, hstep⟩ | ⟨c, e, rest, hin, hstep⟩ | ⟨c, e, rest, hin, hstep⟩ := step_trans_cases s
  all_goals
    rw [hstep] at h
    cases h
  · exact ⟨.inl ⟨he, hd, rfl⟩, ⟨[], by simp⟩, ⟨[], by simp⟩⟩
  · exact ⟨.inr (.inl ⟨e, hin, rfl, rfl⟩), ⟨_, rfl, encTrans_length_le s.enc e⟩, ⟨[], by simp⟩⟩
  · exact ⟨.inr (.inr ⟨e, hin, rfl, rfl⟩), ⟨[], by simp⟩, ⟨_, rfl, decTrans_length_le s.dec e⟩⟩

/-! ### The two units commute, and every interleaving drains to one state -/

/-- Settles O34: an idle unit stays idle after a step of the other; two transitions update disjoint parts of the
state. -/
theorem unitStepsCommute : Obligations.UnitStepsCommute := by
  intro s a b ha hb
  obtain ⟨he, rfl⟩ | ⟨e, rest, he, rfl⟩ := stepUnit_enc_cases ha
  · obtain ⟨-, hin, -⟩ := (unitsDoNotTouchEachOther a b).2 hb
    exact ⟨b, hb, stepUnit_enc_idle (hin.trans he)⟩
  · obtain ⟨hd, rfl⟩ | ⟨e', rest', hd, rfl⟩ := stepUnit_dec_cases hb
    · exact ⟨_, stepUnit_dec_idle hd, ha⟩
    · exact ⟨_, stepUnit_dec_cons hd, stepUnit_enc_cons he⟩

/-- The state both units leave when each has consumed its whole input; `c` is what the turn field then holds. -/
def drained (s : State) (c : Sched) : State where
  enc := (encTransAll s.enc s.encIn).1
  dec := (decTransAll s.dec s.decIn).1
  encIn := []
  encOut := s.encOut ++ (encTransAll s.enc s.encIn).2
  decIn := []
  decOut := s.decOut ++ (decTransAll s.dec s.decIn).2
  sched := c

theorem drained_of_idle {s : State} (he : s.encIn = []) (hd : s.decIn = []) : drained s s.sched = s := by
  obtain ⟨enc, dec, encIn, encOut, decIn, decOut, sched⟩ := s
  cases he
  cases hd
  simp [drained, encTransAll, decTransAll]

/-- Whichever unit a step is of, it does not change what both units are going to leave, and it takes an element where
there is one. -/
theorem exists_step_drained (s : State) :
    ∃ t, step s = .next t ∧ (∀ c, drained t c = drained s c) ∧
      t.encIn.length + t.decIn.length = s.encIn.length + s.decIn.length - 1 := by
  obtain ⟨he, hd, hstep⟩ | ⟨c, e, rest, hin, hstep⟩ | ⟨c, e, rest, hin, hstep⟩ := step_trans_cases s
  · exact ⟨s, hstep, fun _ => rfl, by simp [he, hd]⟩
  · exact ⟨_, hstep, fun _ => by simp [drained, hin, encTransAll], by simp [hin]⟩
  · exact ⟨_, hstep, fun _ => by simp [drained, hin, decTransAll], by simp [hin]⟩

/-- A run of at least one step an element drains both inputs, whatever the turns were. -/
theorem run_drained (k : Nat) (s : State) (hk : s.encIn.length + s.decIn.length ≤ k) :
    ∃ c, core.run k s = .next (drained s c) := by
  induction k generalizing s with
  | zero =>
    have he : s.encIn = [] := List.eq_nil_of_length_eq_zero (by omega)
    have hd : s.decIn = [] := List.eq_nil_of_length_eq_zero (by omega)
    exact ⟨s.sched, by rw [run_zero, drained_of_idle he hd]⟩
  | succ k ih =>
    obtain ⟨t, hstep, hsame, hlen⟩ := exists_step_drained s
    obtain ⟨c, hrun⟩ := ih t (by omega)
    exact ⟨c, by rw [run_succ k hstep, hrun, hsame]⟩

/-- Settles O31: the run drains both inputs. -/
theorem everyElementIsConsumed : Obligations.EveryElementIsConsumed := by
  intro s
  obtain ⟨c, hrun⟩ := run_drained _ s le_rfl
  exact ⟨drained s c, hrun, rfl, rfl⟩

/-- Settles O35: what both units leave does not depend on the turn field. -/
theorem interleavingDoesNotMatter : Obligations.InterleavingDoesNotMatter := by
  intro s c k hk
  obtain ⟨d, hrun⟩ := run_drained k s hk
  obtain ⟨d', hrun'⟩ := run_drained k { s with sched := c } hk
  exact ⟨drained s d, d', hrun, hrun'⟩

/-! ### Bursts -/

/-- How many elements stand on a unit's input. -/
def inputLength : Agent → State → Nat
  | .enc, s => s.encIn.length
  | .dec, s => s.decIn.length

/-- A unit's input stream is the same in both states. -/
def SameInput : Agent → State → State → Prop
  | .enc, s, t => t.encIn = s.encIn
  | .dec, s, t => t.decIn = s.decIn

theorem SameInput.trans {u : Agent} {r s t : State} (h : SameInput u r s) (h' : SameInput u s t) :
    SameInput u r t := by
  cases u <;> exact Eq.trans h' h

theorem SameInput.inputLength_eq {u : Agent} {s t : State} (h : SameInput u s t) :
    inputLength u t = inputLength u s := by
  cases u <;> exact congrArg List.length h

/-- While both units could step, a step is of the unit whose turn it is, and the burst advances. -/
theorem step_of_both_enabled {s : State} (he : s.encIn ≠ []) (hd : s.decIn ≠ []) :
    step s = stepUnit s.sched.turn { s with sched := s.sched.advance } := by
  obtain ⟨e, rest, he⟩ := List.exists_cons_of_ne_nil he
  obtain ⟨e', rest', hd⟩ := List.exists_cons_of_ne_nil hd
  simp only [step, pick, he, hd]

/-- A step within a burst of `u`: it takes an element of `u`'s input and leaves the waiting unit's alone. -/
theorem exists_step_of_turn {u : Agent} {s : State} (hu : s.sched.turn = u) (h : 0 < inputLength u s)
    (h' : 0 < inputLength u.other s) :
    ∃ t, step s = .next t ∧ t.sched = s.sched.advance ∧ SameInput u.other s t ∧
      inputLength u t + 1 = inputLength u s := by
  cases u with
  | enc =>
    have hstep := step_of_both_enabled (List.ne_nil_of_length_pos h) (List.ne_nil_of_length_pos h')
    obtain ⟨e, rest, hin⟩ := List.exists_cons_of_length_pos h
    rw [hu] at hstep
    exact ⟨_, hstep.trans (stepUnit_enc_cons hin), rfl, rfl, by simp [inputLength, hin]⟩
  | dec =>
    have hstep := step_of_both_enabled (List.ne_nil_of_length_pos h') (List.ne_nil_of_length_pos h)
    obtain ⟨e, rest, hin⟩ := List.exists_cons_of_length_pos h
    rw [hu] at hstep
    exact ⟨_, hstep.trans (stepUnit_dec_cons hin), rfl, rfl, by simp [inputLength, hin]⟩

theorem Sched.advance_of_quota_zero {c : Sched} (h : c.quota = 0) : c.advance.turn = c.turn.other := by
  simp only [Sched.advance, h]

theorem Sched.advance_of_quota_succ {c : Sched} {q : Nat} (h : c.quota = q + 1) :
    c.advance = { c with quota := q } := by
  simp only [Sched.advance, h]

/-- The rest of a burst of `u` while both inputs last, by the steps left of it. -/
theorem run_burst {u : Agent} (q : Nat) (s : State) (hq : s.sched.quota = q) (hu : s.sched.turn = u)
    (h : q < inputLength u s) (h' : 0 < inputLength u.other s) :
    ∃ t, core.run (q + 1) s = .next t ∧ t.sched.turn = u.other ∧ SameInput u.other s t ∧
      inputLength u t + q + 1 = inputLength u s := by
  induction q generalizing s with
  | zero =>
    obtain ⟨t, hstep, hsched, hsame, hlen⟩ := exists_step_of_turn hu h h'
    exact ⟨t, by rw [run_succ 0 hstep, run_zero],
      by rw [hsched, Sched.advance_of_quota_zero hq, hu], hsame, hlen⟩
  | succ q ih =>
    obtain ⟨r, hstep, hsched, hsame, hlen⟩ := exists_step_of_turn hu (by omega) h'
    rw [Sched.advance_of_quota_succ hq] at hsched
    obtain ⟨t, hrun, hturn, hsame', hlen'⟩ :=
      ih r (by rw [hsched]) (by rw [hsched, hu]) (by omega) (by rwa [hsame.inputLength_eq])
    exact ⟨t, by rw [run_succ _ hstep, hrun], hturn, hsame.trans hsame', by omega⟩

/-- Settles O32: the burst of the unit whose turn it is, seen from each unit. -/
theorem burstsEnd : Obligations.BurstsEnd := by
  intro s he hd
  cases hu : s.sched.turn with
  | enc =>
    obtain ⟨t, hrun, hturn, hsame, hlen⟩ := run_burst _ s rfl hu he (Nat.zero_lt_of_lt hd)
    exact ⟨t, hrun, hturn, fun _ => ⟨hsame, hlen⟩, fun h => by cases h⟩
  | dec =>
    obtain ⟨t, hrun, hturn, hsame, hlen⟩ := run_burst _ s rfl hu hd (Nat.zero_lt_of_lt he)
    exact ⟨t, hrun, hturn, fun h => (by cases h), fun _ => ⟨hsame, hlen⟩⟩

/-! ### Output streams as results -/

theorem results_data_append {α : Type} (xs : List α) (rest : List (OutElem α)) :
    results (xs.map .data ++ rest) = resultsFrom xs rest :=
  resultsFrom_data [] xs rest

/-- Settles O50: the data elements are collected, and what stands after them says what they are worth. -/
theorem outputReadsAsResults : Obligations.OutputReadsAsResults := by
  intro xs e rest
  refine ⟨?_, ?_, ?_⟩
  · rw [results_data_append]; rfl
  · rw [results_data_append]; rfl
  · simpa [resultsFrom] using results_data_append xs []

end Sys2Proof.Machine
end

section
/-! PROOFS of the statements of 30_encoding.md: instructions and issues are written and read back, the class of a
code point, and a symbol as the decoder's steps over its bytes and as the encoder emits it. -/

namespace Sys2Proof.Machine

/-! ### The class of a code point -/

/-- `class_of(v)` is the one class whose ceiling is at least `v` and below which every ceiling is exceeded
(40_encoder.md R121). -/
theorem classOf_eq_some_iff {cfg : Config} {v : CodePoint} {n : Fin 6} :
    classOf cfg v = some n ↔ v ≤ cfg.ceil[n] ∧ ∀ m : Fin 6, m < n → cfg.ceil[m] < v := by
  refine ⟨classOf_eq_some, fun ⟨hle, hgt⟩ => ?_⟩
  cases hc : classOf cfg v with
  | none => exact absurd hle (BitVec.not_le.2 (classOf_eq_none.1 hc n))
  | some k =>
    obtain ⟨hk, hk'⟩ := classOf_eq_some hc
    obtain hlt | rfl | hlt := lt_trichotomy k n
    · exact absurd hk (BitVec.not_le.2 (hgt k hlt))
    · rfl
    · exact absurd hle (BitVec.not_le.2 (hk' n hlt))

/-- A budget is the number of bits of its class's ceiling (00_scope.md R7 (b)). -/
theorem ceil_toNat_succ (n : Fin 6) : tables.ceil[n].toNat + 1 = 2 ^ tables.budget[n] := by
  revert n; decide

/-- No bit stands above a class's budget exactly when the class's ceiling holds the code point. -/
theorem shiftRight_budget_eq_zero_iff (v : CodePoint) (n : Fin 6) :
    v >>> tables.budget[n] = 0 ↔ v ≤ tables.ceil[n] := by
  have hdiv : (v >>> tables.budget[n]).toNat = v.toNat / 2 ^ tables.budget[n] := by
    rw [BitVec.toNat_ushiftRight, Nat.shiftRight_eq_div_pow]
  rw [← BitVec.toNat_inj, hdiv, BitVec.le_def, ← Nat.lt_succ_iff, Nat.succ_eq_add_one, ceil_toNat_succ]
  exact Nat.div_eq_zero_iff_lt (Nat.two_pow_pos _)

/-- Settles O9: each comparison with a ceiling is a shift by its budget. -/
theorem classIsToldByTheHighestBit : Obligations.ClassIsToldByTheHighestBit := by
  intro v n
  simp only [classOf_eq_some_iff, ne_eq, shiftRight_budget_eq_zero_iff, BitVec.not_le]

theorem ceil_mono {m n : Fin 6} (h : m ≤ n) : tables.ceil[m] ≤ tables.ceil[n] := by
  revert m n; decide

/-- The ceilings increase, so of those below a class only the next lower one matters (40_encoder.md R120). -/
theorem classOf_eq_some_succ_iff {v : CodePoint} {k : Fin 5} :
    classOf tables v = some k.succ ↔ tables.ceil[k.castSucc] < v ∧ v ≤ tables.ceil[k.succ] := by
  rw [classOf_eq_some_iff, and_comm]
  refine and_congr_left fun _ => ⟨fun h => h _ k.castSucc_lt_succ, fun h m hm => ?_⟩
  exact Nat.lt_of_le_of_lt (ceil_mono (Fin.le_castSucc_iff.2 hm)) h

/-! ### The rows of the dispatch tables, by class -/

/-- The encoder's row for a code point of a class (40_encoder.md R120). -/
def encRow (n : Fin 6) (v : CodePoint) : Instr :=
  match n with
  | 0 => .enc1 v
  | 1 => .enc2 v
  | 2 => .enc3 v
  | 3 => .enc4 v
  | 4 => .enc5 v
  | 5 => .enc6 v

/-- The decoder's row for a lead byte of a class (41_decoder.md R150). -/
def leadRow (n : Fin 6) (b : Byte) : Instr :=
  match n with
  | 0 => .decLead1 b
  | 1 => .decLead2 b
  | 2 => .decLead3 b
  | 3 => .decLead4 b
  | 4 => .decLead5 b
  | 5 => .decLead6 b

theorem encode_encRow (n : Fin 6) (v : CodePoint) : encode (encRow n v) = .enc .run (.data v) := by
  fin_cases n <;> rfl

theorem encode_leadRow (n : Fin 6) (b : Byte) : encode (leadRow n b) = .dec .awaitLead (.data b) := by
  fin_cases n <;> rfl

/-- The range of an encoder's row is its class. -/
theorem encRow_wf_iff {n : Fin 6} {v : CodePoint} : (encRow n v).wf = true ↔ classOf tables v = some n := by
  cases n using Fin.cases with
  | zero => simp [encRow, Instr.wf, classOf_eq_some_iff]
  | succ k =>
    rw [classOf_eq_some_succ_iff]
    fin_cases k <;> simp [encRow, Instr.wf]

theorem encToolarge_wf_iff {v : CodePoint} : (Instr.encToolarge v).wf = true ↔ classOf tables v = none := by
  have hmax : tables.ceil[5] < v ↔ ∀ n : Fin 6, tables.ceil[n] < v :=
    ⟨fun h n => Nat.lt_of_le_of_lt (ceil_mono (Fin.le_last n)) h, fun h => h 5⟩
  rw [classOf_eq_none, ← hmax]
  simp [Instr.wf]

/-- The class of a lead byte is the one whose pattern it has (41_decoder.md R159). -/
theorem leadClass_eq_some_iff {b : Byte} {n : Fin 6} : leadClass tables b = some n ↔ isLead tables n b = true := by
  revert b n; decide

/-- The pattern of a lead byte's row is its class. -/
theorem leadRow_wf_iff {n : Fin 6} {b : Byte} : (leadRow n b).wf = true ↔ leadClass tables b = some n := by
  rw [leadClass_eq_some_iff]
  fin_cases n <;> rfl

/-- `FE` and `FF` have neither a lead nor the continuation pattern (30_encoding.md R86). -/
theorem neither_of_patternFeff {b : Byte} (h : patternFeff b = true) :
    leadClass tables b = none ∧ isCont tables b = false := by
  revert b; decide

/-- A byte with `0` or `11` at the top is no continuation byte (30_encoding.md R86). -/
theorem isCont_eq_false_of_pattern0 {b : Byte} (h : pattern0 b = true) : isCont tables b = false := by
  revert b; decide

theorem isCont_eq_false_of_pattern11 {b : Byte} (h : pattern11 b = true) : isCont tables b = false := by
  revert b; decide

theorem decodeEnc_run_of_class {v : CodePoint} {n : Fin 6} (h : classOf tables v = some n) :
    decodeEnc tables .run (.data v) = encRow n v := by
  simp only [decodeEnc, h]
  fin_cases n <;> rfl

theorem decodeEnc_run_of_tooLarge {v : CodePoint} (h : classOf tables v = none) :
    decodeEnc tables .run (.data v) = .encToolarge v := by
  simp only [decodeEnc, h]

theorem decodeDec_awaitLead_of_class {b : Byte} {n : Fin 6} (h : leadClass tables b = some n) :
    decodeDec tables .awaitLead (.data b) = leadRow n b := by
  simp only [decodeDec, h]
  fin_cases n <;> rfl

theorem decodeDec_awaitLead_of_isCont {b : Byte} (h : isCont tables b = true) :
    decodeDec tables .awaitLead (.data b) = .decBadlead10 b := by
  simp only [decodeDec, leadClass_of_isCont h, h, if_true]

theorem decodeDec_awaitLead_of_patternFeff {b : Byte} (h : patternFeff b = true) :
    decodeDec tables .awaitLead (.data b) = .decBadleadFeff b := by
  obtain ⟨hlead, hcont⟩ := neither_of_patternFeff h
  simp [decodeDec, hlead, hcont]

theorem decodeDec_awaitCont_of_isCont {b : Byte} (h : isCont tables b = true) :
    decodeDec tables .awaitCont (.data b) = .decCont b := by
  simp only [decodeDec, h, if_true]

theorem decodeDec_awaitCont_of_pattern0 {b : Byte} (h : pattern0 b = true) :
    decodeDec tables .awaitCont (.data b) = .decBadcont0 b := by
  simp [decodeDec, isCont_eq_false_of_pattern0 h, h]

theorem decodeDec_awaitCont_of_pattern11 {b : Byte} (h : pattern11 b = true) :
    decodeDec tables .awaitCont (.data b) = .decBadcont11 b := by
  have hcont := isCont_eq_false_of_pattern11 h
  simp [decodeDec, hcont, pattern0_eq_not_pattern11 hcont, h]

/-! ### Instructions and issues -/

/-- The bytes of a symbol, and nothing after them, are that symbol. -/
theorem decode_symbolBytes {i : Instr} (h : symbolBytes i ≠ []) :
    decode tables (.symbol (symbolBytes i)) = .ok i := by
  have hd := decodeSymbol_symbolBytes i [] h
  rw [List.append_nil] at hd
  simp only [decode, hd]

theorem decode_encRow {n : Fin 6} {v : CodePoint} (h : (encRow n v).wf = true) :
    decode tables (encode (encRow n v)) = .ok (encRow n v) := by
  rw [encode_encRow, decode, decodeEnc_run_of_class (encRow_wf_iff.1 h)]

theorem decode_leadRow {n : Fin 6} {b : Byte} (h : (leadRow n b).wf = true) :
    decode tables (encode (leadRow n b)) = .ok (leadRow n b) := by
  rw [encode_leadRow, decode, decodeDec_awaitLead_of_class (leadRow_wf_iff.1 h)]

/-- Settles O4: by the rows of the opcode table. A symbol is read from its own bytes; the other rows are selected by
the pattern or the range that well-formedness asks of their operand. -/
theorem decodeOfEncodeIsTheInstruction : Obligations.DecodeOfEncodeIsTheInstruction := by
  intro i hwf
  cases i with
  | seq1 | seq2 | seq3 | seq4 | seq5 | seq6 => exact decode_symbolBytes (List.cons_ne_nil _ _)
  | decLead1 b => exact decode_leadRow (n := 0) hwf
  | decLead2 b => exact decode_leadRow (n := 1) hwf
  | decLead3 b => exact decode_leadRow (n := 2) hwf
  | decLead4 b => exact decode_leadRow (n := 3) hwf
  | decLead5 b => exact decode_leadRow (n := 4) hwf
  | decLead6 b => exact decode_leadRow (n := 5) hwf
  | decBadlead10 b => exact congrArg Except.ok (decodeDec_awaitLead_of_isCont hwf)
  | decBadleadFeff b => exact congrArg Except.ok (decodeDec_awaitLead_of_patternFeff hwf)
  | decCont b => exact congrArg Except.ok (decodeDec_awaitCont_of_isCont hwf)
  | decBadcont0 b => exact congrArg Except.ok (decodeDec_awaitCont_of_pattern0 hwf)
  | decBadcont11 b => exact congrArg Except.ok (decodeDec_awaitCont_of_pattern11 hwf)
  | enc1 v => exact decode_encRow (n := 0) hwf
  | enc2 v => exact decode_encRow (n := 1) hwf
  | enc3 v => exact decode_encRow (n := 2) hwf
  | enc4 v => exact decode_encRow (n := 3) hwf
  | enc5 v => exact decode_encRow (n := 4) hwf
  | enc6 v => exact decode_encRow (n := 5) hwf
  | encToolarge v => exact congrArg Except.ok (decodeEnc_run_of_tooLarge (encToolarge_wf_iff.1 hwf))
  | encDrain | encEnd | decDrain | decEndOk | decEndTrunc | decEndFail => rfl

/-- What O5 asks of an issue and the instruction it is. -/
def WrittenAsRead (x : Issue) (i : Instr) : Prop :=
  i.wf = true ∧ (x ≠ .enc .failed .endMark → encode i = x)

theorem writtenAsRead_decodeEnc (st : EncSt) (e : InElem CodePoint) :
    WrittenAsRead (.enc st e) (decodeEnc tables st e) := by
  match st, e with
  | .run, .endMark => exact ⟨rfl, fun _ => rfl⟩
  | .failed, .endMark => exact ⟨rfl, fun h => absurd rfl h⟩
  | .failed, .data v => exact ⟨rfl, fun _ => rfl⟩
  | .run, .data v =>
    cases hc : classOf tables v with
    | some n =>
      rw [decodeEnc_run_of_class hc]
      exact ⟨encRow_wf_iff.2 hc, fun _ => encode_encRow n v⟩
    | none =>
      rw [decodeEnc_run_of_tooLarge hc]
      exact ⟨encToolarge_wf_iff.2 hc, fun _ => rfl⟩

theorem writtenAsRead_decodeDec (st : DecSt) (e : InElem Byte) :
    WrittenAsRead (.dec st e) (decodeDec tables st e) := by
  match st, e with
  | .awaitLead, .endMark => exact ⟨rfl, fun _ => rfl⟩
  | .awaitCont, .endMark => exact ⟨rfl, fun _ => rfl⟩
  | .failed, .endMark => exact ⟨rfl, fun _ => rfl⟩
  | .failed, .data b => exact ⟨rfl, fun _ => rfl⟩
  | .awaitLead, .data b =>
    cases hc : leadClass tables b with
    | some n =>
      rw [decodeDec_awaitLead_of_class hc]
      exact ⟨leadRow_wf_iff.2 hc, fun _ => encode_leadRow n b⟩
    | none =>
      cases hk : isCont tables b with
      | true =>
        rw [decodeDec_awaitLead_of_isCont hk]
        exact ⟨hk, fun _ => rfl⟩
      | false =>
        have hfeff := patternFeff_of_neither hc hk
        rw [decodeDec_awaitLead_of_patternFeff hfeff]
        exact ⟨hfeff, fun _ => rfl⟩
  | .awaitCont, .data b =>
    cases hk : isCont tables b with
    | true =>
      rw [decodeDec_awaitCont_of_isCont hk]
      exact ⟨hk, fun _ => rfl⟩
    | false =>
      have htop := pattern0_eq_not_pattern11 hk
      cases h11 : pattern11 b with
      | true =>
        rw [decodeDec_awaitCont_of_pattern11 h11]
        exact ⟨h11, fun _ => rfl⟩
      | false =>
        rw [h11] at htop
        rw [decodeDec_awaitCont_of_pattern0 htop]
        exact ⟨htop, fun _ => rfl⟩

/-- A symbol has no operand to check, and it is written as the bytes of its format. -/
theorem writtenAsRead_symbol {i : Instr} (h : symbolBytes i ≠ []) : WrittenAsRead (.symbol (symbolBytes i)) i := by
  cases i
  case seq1 | seq2 | seq3 | seq4 | seq5 | seq6 => exact ⟨rfl, fun _ => rfl⟩
  all_goals exact absurd rfl h

/-- Bytes that are an instruction are exactly the bytes of a symbol. -/
theorem symbolBytes_of_decode {bytes : List Byte} {i : Instr} (h : decode tables (.symbol bytes) = .ok i) :
    symbolBytes i = bytes ∧ symbolBytes i ≠ [] := by
  simp only [decode] at h
  split at h
  · cases h
  · next j hd =>
    cases h
    obtain ⟨rfl, hne⟩ := decodeSymbol_ok hd
    exact ⟨(List.append_nil _).symm, hne⟩
  · cases h

/-- Settles O5: by the kind of issue, an element of either unit's input or the bytes of a symbol. -/
theorem encodeOfDecodeIsTheIssue : Obligations.EncodeOfDecodeIsTheIssue := by
  intro x i h
  cases x with
  | enc st e =>
    cases h
    exact writtenAsRead_decodeEnc st e
  | dec st e =>
    cases h
    exact writtenAsRead_decodeDec st e
  | symbol bytes =>
    obtain ⟨rfl, hne⟩ := symbolBytes_of_decode h
    exact writtenAsRead_symbol hne

/-- Settles O6: each word is evaluated. -/
theorem tableWordsDecode : Obligations.TableWordsDecode := by
  unfold Obligations.TableWordsDecode
  decide

/-! ### A symbol as the decoder's steps over its bytes -/

theorem exec_of_symbol {i : Instr} (h : symbolBytes i ≠ []) (s : State) :
    exec i s = .next (consumeBytes (symbolBytes i) s) := by
  cases i
  case seq1 | seq2 | seq3 | seq4 | seq5 | seq6 => rfl
  all_goals exact absurd rfl h

/-- Settles O24: the steps and the instruction are the same transitions over the symbol's bytes. -/
theorem stepsOfSymbolBytesAreTheSymbol : Obligations.StepsOfSymbolBytesAreTheSymbol := by
  intro i s rest hne hin
  have hrun := runUnit_dec _ rest s hin
  rw [List.length_map] at hrun
  rw [hrun, exec_of_symbol hne, consumeBytes_eq]

/-- The code point that groups of six bits make up below the bits assembled so far (30_encoding.md R84). -/
def assemble (acc : CodePoint) (gs : List (BitVec 6)) : CodePoint :=
  gs.foldl (fun acc g => (acc <<< 6) ||| g.setWidth 32) acc

/-- The continuation bytes of a symbol, all that are still to come: the code point is appended and the decoder
awaits a lead byte (41_decoder.md R158). -/
theorem consumeBytes_contBytes (g : BitVec 6) (gs : List (BitVec 6)) (s : State) (hst : s.dec.st = .awaitCont)
    (hrem : s.dec.rem.val = gs.length + 1) :
    consumeBytes ((g :: gs).map contByte) s = { s with
      dec := { s.dec with st := .awaitLead, rem := 0, acc := 0 }
      decOut := s.decOut ++ [.data (assemble s.dec.acc (g :: gs))] } := by
  induction gs generalizing g s with
  | nil =>
    have hlast : ¬ 1 < s.dec.rem.val := by simp [hrem]
    simp [consumeBytes, consumeByte_cont hst (isCont_contByte g), continueSymbol, hlast, putDec, assemble,
      accumulate_contByte]
  | cons g' gs ih =>
    have hmore : 1 < s.dec.rem.val := by simp [hrem]
    have hnext : consumeByte (contByte g) s = { s with dec :=
        { s.dec with acc := (s.dec.acc <<< 6) ||| g.setWidth 32, rem := oneFewer s.dec.rem } } := by
      rw [consumeByte_cont hst (isCont_contByte g), continueSymbol, if_pos hmore, accumulate_contByte]
    rw [List.map_cons, consumeBytes, hnext, ih g']
    · simp [assemble]
    · exact hst
    · simp [oneFewer, hrem]

/-- A symbol of more than one byte, in lead position. -/
theorem consumeBytes_symbol {n : Fin 6} {lead : Byte} (g : BitVec 6) (gs : List (BitVec 6)) {s : State}
    (hst : s.dec.st = .awaitLead) (hc : leadClass tables lead = some n) (hn : n.val = gs.length + 1) :
    consumeBytes (lead :: (g :: gs).map contByte) s = { s with
      dec := { s.dec with rem := 0, acc := 0 }
      decOut := s.decOut ++ [.data (assemble (leadPayload tables n lead) (g :: gs))] } := by
  have hn0 : n ≠ 0 := by rintro rfl; simp at hn
  rw [consumeBytes, consumeByte_lead hst hc, beginSymbol, if_neg hn0, consumeBytes_contBytes g gs _ rfl hn]
  simp [← hst]

/-- A symbol of more than one byte as an instruction: `v` is its payloads put together. -/
theorem exec_symbol_assembles {i : Instr} {n : Fin 6} {lead : Byte} {acc v : CodePoint} (g : BitVec 6)
    (gs : List (BitVec 6)) {s : State} (hst : s.dec.st = .awaitLead) (hc : leadClass tables lead = some n)
    (hn : n.val = gs.length + 1) (hp : leadPayload tables n lead = acc)
    (hi : symbolBytes i = lead :: (g :: gs).map contByte) (hv : assemble acc (g :: gs) = v) :
    exec i s = .next { s with
      dec := { s.dec with rem := 0, acc := 0 }
      decOut := s.decOut ++ [.data v] } := by
  have hne : symbolBytes i ≠ [] := by simp [hi]
  rw [exec_of_symbol hne, hi, consumeBytes_symbol g gs hst hc hn, hp, hv]

/-- Settles O22: a symbol is its lead byte's payload with its groups assembled below it; in `SEQ1` the payload is the
whole code point. -/
theorem symbolsDecodeToTheirFields : Obligations.SymbolsDecodeToTheirFields := by
  intro s hst
  refine ⟨fun a => ?_, fun a b => ?_, fun a b c => ?_, fun a b c d => ?_, fun a b c d e => ?_,
    fun a b c d e f => ?_⟩
  · obtain ⟨hc, -, hp⟩ := lead1_fields a
    simp [exec, execSeq1, symbolBytes, consumeBytes, consumeByte_lead hst hc, beginSymbol, putDec, hp]
  · obtain ⟨hc, -, hp⟩ := lead2_fields a
    exact exec_symbol_assembles b [] hst hc rfl hp rfl rfl
  · obtain ⟨hc, -, hp⟩ := lead3_fields a
    exact exec_symbol_assembles b [c] hst hc rfl hp rfl
      (by simp [assemble, BitVec.shiftLeft_or_distrib, ← BitVec.shiftLeft_add])
  · obtain ⟨hc, -, hp⟩ := lead4_fields a
    exact exec_symbol_assembles b [c, d] hst hc rfl hp rfl
      (by simp [assemble, BitVec.shiftLeft_or_distrib, ← BitVec.shiftLeft_add])
  · obtain ⟨hc, -, hp⟩ := lead5_fields a
    exact exec_symbol_assembles b [c, d, e] hst hc rfl hp rfl
      (by simp [assemble, BitVec.shiftLeft_or_distrib, ← BitVec.shiftLeft_add])
  · obtain ⟨hc, -, hp⟩ := lead6_fields a
    exact exec_symbol_assembles b [c, d, e, f] hst hc rfl hp rfl
      (by simp [assemble, BitVec.shiftLeft_or_distrib, ← BitVec.shiftLeft_add])

/-! ### The symbol of a code point -/

/-- Settles O25: the symbol is the one whose fields are the bits of the code point. -/
theorem emittedSymbolCarriesTheCodePoint : Obligations.EmittedSymbolCarriesTheCodePoint := by
  intro v n hc
  have hle := (classOf_eq_some hc).1
  have hbytes := symbolBytes_symbolOf hle
  have hd := decodeSymbol_symbolBytes (symbolOf n v) [] (by simp [hbytes, encSym])
  rw [hbytes, List.append_nil] at hd
  exact ⟨symbolOf n v, hd, hbytes, symbolCodePoint_symbolOf hle⟩

/-- Settles O47: `decode_one` reads the symbol the bytes begin with, which is the symbol they were written from. -/
theorem wellFormedSymbolsAlwaysDecode : Obligations.WellFormedSymbolsAlwaysDecode := by
  intro i rest hne
  rw [decodeOne_eq_decodeSymbol, decodeSymbol_symbolBytes i rest hne]
  rfl

end Sys2Proof.Machine
end

section
/-! PROOFS of the statements of 40_encoder.md: the encoder's dispatch table and its cases, the printed `CEIL[3]`, and
which case a step runs and where a case is refused. -/

namespace Sys2Proof.Machine

/-! ### The classes by the ranges the tables print -/

theorem classOf_of_range0 {v : CodePoint} (h : v ≤ 0x7F) : classOf tables v = some 0 :=
  classOf_eq_some_iff.2 ⟨h, nofun⟩

theorem classOf_of_range1 {v : CodePoint} (h : 0x80 ≤ v) (h' : v ≤ 0x7FF) : classOf tables v = some 1 :=
  (classOf_eq_some_succ_iff (k := 0)).2 ⟨h, h'⟩

theorem classOf_of_range2 {v : CodePoint} (h : 0x800 ≤ v) (h' : v ≤ 0xFFFF) : classOf tables v = some 2 :=
  (classOf_eq_some_succ_iff (k := 1)).2 ⟨h, h'⟩

theorem classOf_of_range3 {v : CodePoint} (h : 0x10000 ≤ v) (h' : v ≤ 0x1FFFFF) : classOf tables v = some 3 :=
  (classOf_eq_some_succ_iff (k := 2)).2 ⟨h, h'⟩

theorem classOf_of_range4 {v : CodePoint} (h : 0x200000 ≤ v) (h' : v ≤ 0x3FFFFFF) : classOf tables v = some 4 :=
  (classOf_eq_some_succ_iff (k := 3)).2 ⟨h, h'⟩

theorem classOf_of_range5 {v : CodePoint} (h : 0x4000000 ≤ v) (h' : v ≤ 0x7FFFFFFF) : classOf tables v = some 5 :=
  (classOf_eq_some_succ_iff (k := 4)).2 ⟨h, h'⟩

theorem classOf_of_aboveRange {v : CodePoint} (h : 0x80000000 ≤ v) : classOf tables v = none :=
  classOf_eq_none.2 fun n => Nat.lt_of_le_of_lt (ceil_mono (Fin.le_last n)) h

/-- Settles O7: each range is the class its row is for. -/
theorem encoderDispatchIsTheTable : Obligations.EncoderDispatchIsTheTable := fun _ =>
  ⟨fun h => decodeEnc_run_of_class (classOf_of_range0 h),
    fun h h' => decodeEnc_run_of_class (classOf_of_range1 h h'),
    fun h h' => decodeEnc_run_of_class (classOf_of_range2 h h'),
    fun h h' => decodeEnc_run_of_class (classOf_of_range3 h h'),
    fun h h' => decodeEnc_run_of_class (classOf_of_range4 h h'),
    fun h h' => decodeEnc_run_of_class (classOf_of_range5 h h'),
    fun h => decodeEnc_run_of_tooLarge (classOf_of_aboveRange h),
    rfl,
    fun st => by cases st <;> rfl⟩

/-! ### The bytes of a code point, as R122 to R127 write them -/

theorem leadByteOf_eq_setWidth (n : Fin 6) (v : CodePoint) :
    leadByteOf tables n v = BitVec.setWidth 8 (tables.leadMark[n].setWidth 32 ||| v >>> (6 * n.val)) := by
  rw [leadByteOf_tables, BitVec.setWidth_or, BitVec.setWidth_setWidth_of_le _ (by decide), BitVec.setWidth_eq,
    BitVec.or_comm]

/-- The lead byte of class 0 has no marker bit set (40_encoder.md R122). -/
theorem leadByteOf_class0_eq_setWidth (v : CodePoint) : leadByteOf tables 0 v = v.setWidth 8 :=
  BitVec.or_zero

theorem contByteOf_eq_setWidth (n : Fin 6) (v : CodePoint) (i : Nat) :
    contByteOf tables n v i = BitVec.setWidth 8 (0x80#32 ||| (v >>> ((n.val - i - 1) * 6) &&& 0x3F)) := by
  rw [contByteOf_tables, BitVec.setWidth_or, BitVec.setWidth_and, BitVec.or_comm]
  rfl

/-- A code point of a class in `RUN`: the bytes of its symbol are appended, nothing else changes. -/
theorem exec_encRow {n : Fin 6} {v : CodePoint} {s : State} (hst : s.enc.st = .run)
    (hc : classOf tables v = some n) :
    exec (encRow n v) s = .next { s with encOut := s.encOut ++ (encSym tables n v).map .data } := by
  rw [← decodeEnc_run_of_class hc, exec_decodeEnc _ _ _ hst]
  simp only [encEffect, hst, hc, putEnc]

/-- The case of a code point's class, with the bytes its rule writes out. -/
theorem exec_encRow_bytes {n : Fin 6} {v : CodePoint} {s : State} {out : List (OutElem Byte)}
    (hst : s.enc.st = .run) (hc : classOf tables v = some n) (hb : (encSym tables n v).map .data = out) :
    exec (encRow n v) s = .next { s with encOut := s.encOut ++ out } := by
  rw [exec_encRow hst hc, hb]

/-- Settles O11: each range is a class, whose symbol's lead and continuation bytes are those of the rule. -/
theorem encodesClasses0To2 : Obligations.EncodesClasses0To2 := by
  intro v s hst
  refine ⟨fun h => exec_encRow_bytes (n := 0) hst (classOf_of_range0 h) ?_,
    fun h h' => exec_encRow_bytes (n := 1) hst (classOf_of_range1 h h') ?_,
    fun h h' => exec_encRow_bytes (n := 2) hst (classOf_of_range2 h h') ?_⟩
  · rw [encSym_class0, leadByteOf_class0_eq_setWidth]
    rfl
  · simp only [encSym_class1, leadByteOf_eq_setWidth, contByteOf_eq_setWidth]
    rfl
  · simp only [encSym_class2, leadByteOf_eq_setWidth, contByteOf_eq_setWidth]
    rfl

/-- Settles O12: each range is a class, whose symbol has the lead byte and the three to five continuation bytes of the
rule. -/
theorem encodesClasses3To5 : Obligations.EncodesClasses3To5 := by
  intro v s hst
  refine ⟨fun h h' => exec_encRow_bytes (n := 3) hst (classOf_of_range3 h h') ?_,
    fun h h' => exec_encRow_bytes (n := 4) hst (classOf_of_range4 h h') ?_,
    fun h h' => exec_encRow_bytes (n := 5) hst (classOf_of_range5 h h') ?_⟩
  · simp only [encSym_class3, leadByteOf_eq_setWidth, contByteOf_eq_setWidth]
    rfl
  · simp only [encSym_class4, leadByteOf_eq_setWidth, contByteOf_eq_setWidth]
    rfl
  · simp only [encSym_class5, leadByteOf_eq_setWidth, contByteOf_eq_setWidth]
    rfl

/-! ### The encoder's other cases -/

/-- Settles O13: above the range there is no class, and the effect of the element is to raise. -/
theorem tooLargeCodePointRaises : Obligations.TooLargeCodePointRaises := by
  intro v s hst h
  have hc := classOf_of_aboveRange h
  rw [← decodeEnc_run_of_tooLarge hc, exec_decodeEnc _ _ _ hst]
  simp only [encEffect, hst, hc, raise]
  rfl

/-- Settles O14: in `FAILED` the tables select the two `DRAIN` cases, and an element of data has no effect. -/
theorem failedUnitsDiscardData : Obligations.FailedUnitsDiscardData := by
  refine ⟨fun v s hst => ?_, fun b s hst => ?_⟩
  · have hexec := exec_decodeEnc (.data v) _ s hst
    simpa only [decodeEnc, encEffect, hst] using hexec
  · have hexec := exec_decodeDec (.data b) _ s hst
    simpa only [decodeDec, decEffect, consumeByte_failed hst] using hexec

theorem exec_encEnd (s : State) : exec .encEnd s = .next (finish .enc (encResult s.enc) s) := rfl

theorem encResult_of_run {u : EncUnit} (h : u.st = .run) : encResult u = .ok := by
  simp only [encResult, h]

theorem encResult_of_failed {u : EncUnit} (h : u.st = .failed) : encResult u = .err u.err := by
  simp only [encResult, h]

/-- Settles O15: the transaction is finished with the result of the status. -/
theorem encoderEndDeliversTheResult : Obligations.EncoderEndDeliversTheResult := by
  refine fun s => ⟨fun hst => ?_, fun hst => ?_⟩
  · rw [exec_encEnd, encResult_of_run hst]
    rfl
  · rw [exec_encEnd, encResult_of_failed hst]
    rfl

/-! ### Where a case is refused -/

/-- Some element selects the case in its unit's present status (40_encoder.md R120, 41_decoder.md R150). -/
def SelectedIn (s : State) (i : Instr) : Prop :=
  (∃ e, decodeEnc tables s.enc.st e = i) ∨ (∃ e, decodeDec tables s.dec.st e = i)

theorem selectedIn_of_enc {s : State} {i : Instr} {st : EncSt} (e : InElem CodePoint) (hst : s.enc.st = st)
    (h : decodeEnc tables st e = i) : SelectedIn s i :=
  .inl ⟨e, hst ▸ h⟩

theorem selectedIn_of_dec {s : State} {i : Instr} {st : DecSt} (e : InElem Byte) (hst : s.dec.st = st)
    (h : decodeDec tables st e = i) : SelectedIn s i :=
  .inr ⟨e, hst ▸ h⟩

/-- A guarded case is refused, or its guard holds. -/
theorem selected_refused_or {c : Bool} {s' : State} {P : Prop} (h : c = true → P) :
    selected c s' = .refused .caseNotSelected ∨ P := by
  cases c with
  | false => exact .inl (selected_false s')
  | true => exact .inr (h rfl)

theorem exec_encRow_refused_or (n : Fin 6) (v : CodePoint) (s : State) :
    exec (encRow n v) s = .refused .caseNotSelected ∨ SelectedIn s (encRow n v) := by
  have hexec : exec (encRow n v) s = encodeClass n v s := by fin_cases n <;> rfl
  rw [hexec]
  refine selected_refused_or fun hguard => ?_
  obtain ⟨hst, hc⟩ : s.enc.st = .run ∧ classOf tables v = some n := by simpa using hguard
  exact selectedIn_of_enc (.data v) hst (decodeEnc_run_of_class hc)

theorem exec_leadRow_refused_or (n : Fin 6) (b : Byte) (s : State) :
    exec (leadRow n b) s = .refused .caseNotSelected ∨ SelectedIn s (leadRow n b) := by
  have hexec : exec (leadRow n b) s = leadOfClass n b s := by fin_cases n <;> rfl
  rw [hexec]
  refine selected_refused_or fun hguard => ?_
  obtain ⟨hst, hc⟩ : s.dec.st = .awaitLead ∧ leadClass tables b = some n := by simpa using hguard
  exact selectedIn_of_dec (.data b) hst (decodeDec_awaitLead_of_class hc)

/-- A guard on a byte: in a status, the byte has the pattern of the case's row. -/
theorem selected_byte_refused_or {i : Instr} {s s' : State} {st : DecSt} {row : Bool} (b : Byte)
    (h : row = true → decodeDec tables st (.data b) = i) :
    selected (s.dec.st == st && row) s' = .refused .caseNotSelected ∨ SelectedIn s i := by
  refine selected_refused_or fun hguard => ?_
  obtain ⟨hst, hrow⟩ : s.dec.st = st ∧ row = true := by simpa using hguard
  exact selectedIn_of_dec (.data b) hst (h hrow)

/-- A guard on the decoder's status alone. -/
theorem selected_status_refused_or {i : Instr} {s s' : State} {st : DecSt} (e : InElem Byte)
    (h : decodeDec tables st e = i) :
    selected (s.dec.st == st) s' = .refused .caseNotSelected ∨ SelectedIn s i :=
  selected_refused_or fun hguard => selectedIn_of_dec e (eq_of_beq hguard) h

/-- A case that is no symbol is refused, or its guard says that some element selects it. -/
theorem exec_refused_or_selectedIn {i : Instr} (h : symbolBytes i = []) (s : State) :
    exec i s = .refused .caseNotSelected ∨ SelectedIn s i := by
  cases i with
  | seq1 | seq2 | seq3 | seq4 | seq5 | seq6 => exact absurd h (List.cons_ne_nil _ _)
  | decLead1 b => exact exec_leadRow_refused_or 0 b s
  | decLead2 b => exact exec_leadRow_refused_or 1 b s
  | decLead3 b => exact exec_leadRow_refused_or 2 b s
  | decLead4 b => exact exec_leadRow_refused_or 3 b s
  | decLead5 b => exact exec_leadRow_refused_or 4 b s
  | decLead6 b => exact exec_leadRow_refused_or 5 b s
  | decBadlead10 b => exact selected_byte_refused_or b decodeDec_awaitLead_of_isCont
  | decBadleadFeff b => exact selected_byte_refused_or b decodeDec_awaitLead_of_patternFeff
  | decCont b => exact selected_byte_refused_or b decodeDec_awaitCont_of_isCont
  | decBadcont0 b => exact selected_byte_refused_or b decodeDec_awaitCont_of_pattern0
  | decBadcont11 b => exact selected_byte_refused_or b decodeDec_awaitCont_of_pattern11
  | enc1 v => exact exec_encRow_refused_or 0 v s
  | enc2 v => exact exec_encRow_refused_or 1 v s
  | enc3 v => exact exec_encRow_refused_or 2 v s
  | enc4 v => exact exec_encRow_refused_or 3 v s
  | enc5 v => exact exec_encRow_refused_or 4 v s
  | enc6 v => exact exec_encRow_refused_or 5 v s
  | encToolarge v =>
    refine selected_refused_or fun hguard => ?_
    obtain ⟨hst, hc⟩ : s.enc.st = .run ∧ classOf tables v = none := by simpa using hguard
    exact selectedIn_of_enc (.data v) hst (decodeEnc_run_of_tooLarge hc)
  | encDrain v => exact selected_refused_or fun hguard => selectedIn_of_enc (.data v) (eq_of_beq hguard) rfl
  | encEnd => exact .inr (selectedIn_of_enc .endMark rfl (by cases s.enc.st <;> rfl))
  | decDrain b => exact selected_status_refused_or (.data b) rfl
  | decEndOk => exact selected_status_refused_or .endMark rfl
  | decEndTrunc => exact selected_status_refused_or .endMark rfl
  | decEndFail => exact selected_status_refused_or .endMark rfl

/-- Settles O26: a selected case has the effect of its element, a symbol that of its bytes; the guard of any other
case does not hold. -/
theorem casesRunExactlyWhereSelected : Obligations.CasesRunExactlyWhereSelected := by
  refine fun i s => ⟨?_, fun hsym henc hdec => ?_⟩
  · rintro (hne | ⟨e, rfl⟩ | ⟨e, rfl⟩)
    · exact ⟨_, exec_of_symbol hne s⟩
    · exact ⟨_, exec_decodeEnc e _ s rfl⟩
    · exact ⟨_, exec_decodeDec e _ s rfl⟩
  · obtain hrefused | ⟨e, he⟩ | ⟨e, he⟩ := exec_refused_or_selectedIn hsym s
    · exact hrefused
    · exact absurd he (henc e)
    · exact absurd he (hdec e)

/-! ### The case a step runs -/

theorem stepUnit_enc_eq_exec {s : State} {e : InElem CodePoint} {rest : List (InElem CodePoint)}
    (h : s.encIn = e :: rest) : stepUnit .enc s = exec (decodeEnc tables s.enc.st e) { s with encIn := rest } := by
  simp only [stepUnit, fetch, h]

theorem stepUnit_dec_eq_exec {s : State} {e : InElem Byte} {rest : List (InElem Byte)}
    (h : s.decIn = e :: rest) : stepUnit .dec s = exec (decodeDec tables s.dec.st e) { s with decIn := rest } := by
  simp only [stepUnit, fetch, h]

theorem step_of_enc_enabled {s : State} {e : InElem CodePoint} {rest : List (InElem CodePoint)}
    (he : s.encIn = e :: rest) (hd : s.decIn = []) : step s = stepUnit .enc s := by
  simp only [step, pick, he, hd]

theorem step_of_dec_enabled {s : State} {e : InElem Byte} {rest : List (InElem Byte)}
    (hd : s.decIn = e :: rest) (he : s.encIn = []) : step s = stepUnit .dec s := by
  simp only [step, pick, he, hd]

/-- With both inputs not empty a step is of the unit whose turn it is. -/
theorem step_of_turn {s : State} {e : InElem CodePoint} {rest : List (InElem CodePoint)} {e' : InElem Byte}
    {rest' : List (InElem Byte)} {u : Agent} (he : s.encIn = e :: rest) (hd : s.decIn = e' :: rest')
    (hu : s.sched.turn = u) : step s = stepUnit u { s with sched := s.sched.advance } := by
  rw [step_of_both_enabled (by simp [he]) (by simp [hd]), hu]

/-- Settles O27: which unit steps, then the case of its head element. -/
theorem stepRunsTheDecodedCase : Obligations.StepRunsTheDecodedCase := fun _ =>
  ⟨fun _ _ he hd => (step_of_enc_enabled he hd).trans (stepUnit_enc_eq_exec he),
    fun _ _ hd he => (step_of_dec_enabled hd he).trans (stepUnit_dec_eq_exec hd),
    fun _ _ _ _ he hd hu => (step_of_turn he hd hu).trans (stepUnit_enc_eq_exec he),
    fun _ _ _ _ he hd hu => (step_of_turn he hd hu).trans (stepUnit_dec_eq_exec hd)⟩

/-! ### The printed `CEIL[3]` -/

/-- The class of a code point is told by its comparisons with the ceilings. -/
theorem classOf_congr {cfg cfg' : Config} {v : CodePoint} (h : ∀ n : Fin 6, v ≤ cfg.ceil[n] ↔ v ≤ cfg'.ceil[n]) :
    classOf cfg v = classOf cfg' v := by
  ext n
  simp only [classOf_eq_some_iff, ← BitVec.not_le, h]

/-- The printed table differs from this hardware's in `CEIL[3]` only (93_implementation_defined.md U2). -/
theorem printed_ceil_of_ne {n : Fin 6} (h : n ≠ 3) : printedTables.ceil[n] = tables.ceil[n] := by
  revert n; decide

/-- Outside `0x20000` to `0x1FFFFF` both values of `CEIL[3]` compare alike. -/
theorem le_printed_ceil_iff {v : CodePoint} (h : v < 0x20000 ∨ 0x1FFFFF < v) (n : Fin 6) :
    v ≤ printedTables.ceil[n] ↔ v ≤ tables.ceil[n] := by
  by_cases hn : n = 3
  · subst hn
    change v ≤ 0x1FFFF#32 ↔ v ≤ 0x1FFFFF#32
    bv_omega
  · rw [printed_ceil_of_ne hn]

/-- With the printed ceiling the range is of class 4. -/
theorem classOf_printed_of_range {v : CodePoint} (h : 0x20000 ≤ v) (h' : v ≤ 0x1FFFFF) :
    classOf printedTables v = some 4 := by
  have hbelow : ∀ m : Fin 6, m < 4 → printedTables.ceil[m] ≤ 0x1FFFF#32 := by decide
  have habove : 0x1FFFFF#32 ≤ printedTables.ceil[(4 : Fin 6)] := by decide
  exact classOf_eq_some_iff.2 ⟨Nat.le_trans h' habove, fun m hm => Nat.lt_of_le_of_lt (hbelow m hm) h⟩

/-- The layout of a symbol reads no ceiling. -/
theorem encSym_printed (n : Fin 6) (v : CodePoint) : encSym printedTables n v = encSym tables n v := rfl

theorem maxCp_printed : printedTables.maxCp = tables.maxCp := rfl

/-- Settles O43: the range has class 3 by one table and class 4 by the other; elsewhere the classes agree, and nothing
else of the encoder reads `CEIL[3]`. -/
theorem printedCeilingChangesOneRange : Obligations.PrintedCeilingChangesOneRange := by
  refine fun v => ⟨fun h h' => ⟨?_, ?_⟩, fun h => ?_⟩
  · exact encodeOne_of_class (classOf_of_range3 (Nat.le_trans (by decide : (0x10000 : Nat) ≤ 0x20000) h) h')
  · exact (encodeOne_of_class (classOf_printed_of_range h h')).trans (congrArg _ (encSym_printed 4 v))
  · simp only [encodeOne, classOf_congr (le_printed_ceil_iff h), encSym_printed, maxCp_printed]

end Sys2Proof.Machine
end

section
/-! PROOFS of the statements of 41_decoder.md: the decoder's dispatch table and its cases, a symbol out of place, and
the answers of `decode`. -/

namespace Sys2Proof.Machine

/-! ### The patterns of a byte by the ranges the table prints -/

theorem leadClass_of_range0 {b : Byte} (h : b ≤ 0x7F) : leadClass tables b = some 0 := by
  revert b; decide

theorem leadClass_of_range1 {b : Byte} (h : 0xC0 ≤ b) (h' : b ≤ 0xDF) : leadClass tables b = some 1 := by
  revert b; decide

theorem leadClass_of_range2 {b : Byte} (h : 0xE0 ≤ b) (h' : b ≤ 0xEF) : leadClass tables b = some 2 := by
  revert b; decide

theorem leadClass_of_range3 {b : Byte} (h : 0xF0 ≤ b) (h' : b ≤ 0xF7) : leadClass tables b = some 3 := by
  revert b; decide

theorem leadClass_of_range4 {b : Byte} (h : 0xF8 ≤ b) (h' : b ≤ 0xFB) : leadClass tables b = some 4 := by
  revert b; decide

theorem leadClass_of_range5 {b : Byte} (h : 0xFC ≤ b) (h' : b ≤ 0xFD) : leadClass tables b = some 5 := by
  revert b; decide

theorem isCont_of_range {b : Byte} (h : 0x80 ≤ b) (h' : b ≤ 0xBF) : isCont tables b = true := by
  rw [isCont_tables, decide_eq_true h, decide_eq_true h', Bool.and_self]

theorem patternFeff_of_range {b : Byte} (h : 0xFE ≤ b) : patternFeff b = true := by
  revert b; decide

theorem pattern0_of_range {b : Byte} (h : b ≤ 0x7F) : pattern0 b = true := by
  revert b; decide

theorem pattern11_of_range {b : Byte} (h : 0xC0 ≤ b) : pattern11 b = true := by
  revert b; decide

/-- Settles O8: each range is the class or the pattern its row is for. -/
theorem decoderDispatchIsTheTable : Obligations.DecoderDispatchIsTheTable := fun _ =>
  ⟨fun h => decodeDec_awaitLead_of_class (leadClass_of_range0 h),
    fun h h' => decodeDec_awaitLead_of_class (leadClass_of_range1 h h'),
    fun h h' => decodeDec_awaitLead_of_class (leadClass_of_range2 h h'),
    fun h h' => decodeDec_awaitLead_of_class (leadClass_of_range3 h h'),
    fun h h' => decodeDec_awaitLead_of_class (leadClass_of_range4 h h'),
    fun h h' => decodeDec_awaitLead_of_class (leadClass_of_range5 h h'),
    fun h h' => decodeDec_awaitLead_of_isCont (isCont_of_range h h'),
    fun h => decodeDec_awaitLead_of_patternFeff (patternFeff_of_range h),
    fun h h' => decodeDec_awaitCont_of_isCont (isCont_of_range h h'),
    fun h => decodeDec_awaitCont_of_pattern0 (pattern0_of_range h),
    fun h => decodeDec_awaitCont_of_pattern11 (pattern11_of_range h),
    rfl, rfl, rfl, rfl⟩

/-! ### Lead bytes -/

/-- A case the table selects for a byte does what the decoder does with that byte. -/
theorem exec_of_decodeDec_data {i : Instr} {b : Byte} {st : DecSt} {s : State} (hst : s.dec.st = st)
    (hi : decodeDec tables st (.data b) = i) : exec i s = .next (consumeByte b s) :=
  hi ▸ exec_decodeDec (.data b) st s hst

theorem exec_leadRow {n : Fin 6} {b : Byte} {s : State} (hst : s.dec.st = .awaitLead)
    (hc : leadClass tables b = some n) : exec (leadRow n b) s = .next (beginSymbol n b s) := by
  rw [exec_of_decodeDec_data hst (decodeDec_awaitLead_of_class hc), consumeByte_lead hst hc]

/-- A lead byte of class 0 is all payload (41_decoder.md R151). -/
theorem leadPayload_of_range0 {b : Byte} (h : b ≤ 0x7F) : leadPayload tables 0 b = b.setWidth 32 := by
  revert b; decide

/-- Settles O16: the symbol begins and ends with its lead byte, whose payload is the byte. -/
theorem oneByteSymbolDecodes : Obligations.OneByteSymbolDecodes := by
  intro b s hst h
  rw [← leadPayload_of_range0 h]
  exact exec_leadRow (n := 0) hst (leadClass_of_range0 h)

/-- A lead byte of class 1 to 5: its bits under `m`, the positions its pattern does not fix, are loaded. -/
theorem exec_leadRow_loads {n : Fin 6} {b m : Byte} {s : State} (hst : s.dec.st = .awaitLead)
    (hc : leadClass tables b = some n) (hn : n ≠ 0) (hm : ~~~tables.leadMask[n] = m) :
    exec (leadRow n b) s = .next { s with dec :=
      { s.dec with st := .awaitCont, rem := n, acc := BitVec.setWidth 32 (b &&& m) } } := by
  rw [exec_leadRow hst hc, beginSymbol, if_neg hn, leadPayload, hm]

/-- Settles O17: each range is a class of 1 to 5, whose mask leaves the payload bits of the rule. -/
theorem leadBytesBeginSymbols : Obligations.LeadBytesBeginSymbols := fun _ _ hst =>
  ⟨fun h h' => exec_leadRow_loads (n := 1) hst (leadClass_of_range1 h h') (by decide) (by decide),
    fun h h' => exec_leadRow_loads (n := 2) hst (leadClass_of_range2 h h') (by decide) (by decide),
    fun h h' => exec_leadRow_loads (n := 3) hst (leadClass_of_range3 h h') (by decide) (by decide),
    fun h h' => exec_leadRow_loads (n := 4) hst (leadClass_of_range4 h h') (by decide) (by decide),
    fun h h' => exec_leadRow_loads (n := 5) hst (leadClass_of_range5 h h') (by decide) (by decide)⟩

/-- Settles O18: neither row's bytes have a class, so each raises. -/
theorem badLeadBytesRaise : Obligations.BadLeadBytesRaise := by
  refine fun b s hst => ⟨fun h h' => ?_, fun h => ?_⟩
  · have hcont := isCont_of_range h h'
    rw [exec_of_decodeDec_data hst (decodeDec_awaitLead_of_isCont hcont),
      consumeByte_badLead hst (leadClass_of_isCont hcont)]
    rfl
  · have hfeff := patternFeff_of_range h
    rw [exec_of_decodeDec_data hst (decodeDec_awaitLead_of_patternFeff hfeff),
      consumeByte_badLead hst (neither_of_patternFeff hfeff).1]
    rfl

/-! ### Continuation bytes -/

theorem oneFewer_eq {r r' : Fin 6} (h : r'.val = r.val - 1) : oneFewer r = r' :=
  Fin.ext h.symm

/-- Settles O19: by the count, more continuation bytes to come or this the last one. -/
theorem continuationBytesAccumulate : Obligations.ContinuationBytesAccumulate := by
  intro b s hst h h'
  have hcont := isCont_of_range h h'
  rw [exec_of_decodeDec_data hst (decodeDec_awaitCont_of_isCont hcont), consumeByte_cont hst hcont]
  refine ⟨fun r hmore hr => ?_, fun hlast => ?_⟩
  · rw [continueSymbol, if_pos hmore, oneFewer_eq hr]
    rfl
  · rw [continueSymbol, if_neg (by simp [hlast])]
    rfl

/-- Settles O20: neither row's bytes have the continuation pattern, so each raises. -/
theorem badContinuationBytesRaise : Obligations.BadContinuationBytesRaise := by
  refine fun b s hst => ⟨fun h => ?_, fun h => ?_⟩
  · have hrow := pattern0_of_range h
    rw [exec_of_decodeDec_data hst (decodeDec_awaitCont_of_pattern0 hrow),
      consumeByte_badCont hst (isCont_eq_false_of_pattern0 hrow)]
    rfl
  · have hrow := pattern11_of_range h
    rw [exec_of_decodeDec_data hst (decodeDec_awaitCont_of_pattern11 hrow),
      consumeByte_badCont hst (isCont_eq_false_of_pattern11 hrow)]
    rfl

/-! ### `END` -/

/-- The case `END` selects in a status finishes the transaction with the result of that status. -/
theorem exec_of_decodeDec_endMark {i : Instr} {st : DecSt} {s : State} {r : DoneResult} (hst : s.dec.st = st)
    (hi : decodeDec tables st .endMark = i) (hr : decResult s.dec = r) : exec i s = .next (finish .dec r s) :=
  hi ▸ hr ▸ exec_decodeDec .endMark st s hst

theorem decResult_of_awaitLead {u : DecUnit} (h : u.st = .awaitLead) : decResult u = .ok := by
  simp only [decResult, h]

theorem decResult_of_awaitCont {u : DecUnit} (h : u.st = .awaitCont) : decResult u = .err .unexpectedEnd := by
  simp only [decResult, h]

theorem decResult_of_failed {u : DecUnit} (h : u.st = .failed) : decResult u = .err u.err := by
  simp only [decResult, h]

/-- Settles O21: the transaction is finished with the result of the status. -/
theorem decoderEndDeliversTheResult : Obligations.DecoderEndDeliversTheResult := fun _ =>
  ⟨fun hst => exec_of_decodeDec_endMark hst rfl (decResult_of_awaitLead hst),
    fun hst => exec_of_decodeDec_endMark hst rfl (decResult_of_awaitCont hst),
    fun hst => exec_of_decodeDec_endMark hst rfl (decResult_of_failed hst)⟩

/-! ### A symbol out of place -/

/-- A lead byte does not have the continuation pattern (30_encoding.md R86). -/
theorem isCont_eq_false_of_leadClass {b : Byte} {n : Fin 6} (h : leadClass tables b = some n) :
    isCont tables b = false :=
  isCont_eq_false_of_isLead (by decide) (leadClass_eq_some_iff.1 h)

/-- The first byte of a symbol is the lead byte of its class. -/
theorem leadClass_of_symbolBytes {i : Instr} {lead : Byte} {rest : List Byte} (h : symbolBytes i = lead :: rest) :
    ∃ n, leadClass tables lead = some n := by
  obtain ⟨n, hle, -, hbytes⟩ := symbolBytes_class i (by simp [h])
  obtain ⟨rfl, -⟩ := List.cons.inj (h.symm.trans hbytes)
  exact ⟨n, leadClass_leadByteOf hle⟩

/-- Settles O23: in continuation position the lead byte raises and the others are discarded; after an error all
are. -/
theorem symbolsOutOfPlaceAreNotDecoded : Obligations.SymbolsOutOfPlaceAreNotDecoded := by
  intro i s lead hhead
  obtain ⟨rest, hbytes⟩ := List.head?_eq_some_iff.1 hhead
  obtain ⟨n, hc⟩ := leadClass_of_symbolBytes hbytes
  rw [exec_of_symbol (by simp [hbytes]), hbytes]
  refine ⟨fun hst => ?_, fun hst => ?_⟩
  · rw [consumeBytes, consumeByte_badCont hst (isCont_eq_false_of_leadClass hc), consumeBytes_failed rfl]
    rfl
  · rw [consumeBytes_failed hst]

/-! ### The answers of `decode` -/

/-- Every code point decoded is that of a symbol, so within the ceiling of some class (41_decoder.md R171). -/
theorem decodeSeq_le_maxCp {B : List Byte} {S : List CodePoint} (h : decodeSeq tables B = .ok S) :
    ∀ v ∈ S, v ≤ tables.maxCp := by
  refine decodeSeq_induction (P := fun _ S => ∀ v ∈ S, v ≤ tables.maxCp) (by simp) ?_ h
  intro i B S hne _ ih
  obtain ⟨n, hle, -⟩ := symbolBytes_class i hne
  exact List.forall_mem_cons.2 ⟨Nat.le_trans hle (ceil_mono (Fin.le_last n)), ih⟩

/-- What the error of a byte sequence says of its bytes (41_decoder.md R173, 60_exceptions.md R220). -/
def ErrorHasCause (B : List Byte) (e : ErrorRecord) : Prop :=
  e = .unexpectedEnd ∨
    (∃ b ∈ B, e = .invalidLeadByte b ∧ leadClass tables b = none) ∨
    (∃ b ∈ B, e = .invalidContinuationByte b ∧ isCont tables b = false)

theorem ErrorHasCause.mono {B C : List Byte} {e : ErrorRecord} (hsub : B ⊆ C) (h : ErrorHasCause B e) :
    ErrorHasCause C e := by
  obtain he | ⟨b, hb, he⟩ | ⟨b, hb, he⟩ := h
  · exact .inl he
  · exact .inr (.inl ⟨b, hsub hb, he⟩)
  · exact .inr (.inr ⟨b, hsub hb, he⟩)

theorem decodeConts_error_hasCause {k : Nat} {acc : CodePoint} {B : List Byte} {e : ErrorRecord}
    (h : decodeConts tables k acc B = .error e) : ErrorHasCause B e := by
  induction k generalizing acc B with
  | zero => cases h
  | succ k ih =>
    cases B with
    | nil => cases h; exact .inl rfl
    | cons c rest =>
      rw [decodeConts] at h
      split at h
      · exact (ih h).mono (List.subset_cons_self c rest)
      next hc => cases h; exact .inr (.inr ⟨c, List.mem_cons_self, rfl, Bool.eq_false_iff.2 hc⟩)

theorem decodeOne_error_hasCause {B : List Byte} {e : ErrorRecord} (h : decodeOne tables B = .error e) :
    ErrorHasCause B e := by
  cases B with
  | nil => cases h; exact .inl rfl
  | cons b rest =>
    rw [decodeOne] at h
    split at h
    next hc => cases h; exact .inr (.inl ⟨b, List.mem_cons_self, rfl, hc⟩)
    · exact (decodeConts_error_hasCause h).mono (List.subset_cons_self b rest)

/-- The error of a sequence is that of `decode_one` at the bytes left after the symbols before it
(42_transactions.md R193). -/
theorem decodeSeq_error_suffix {cfg : Config} {B : List Byte} {e : ErrorRecord} (h : decodeSeq cfg B = .error e) :
    ∃ B', B' <:+ B ∧ decodeOne cfg B' = .error e := by
  induction hk : B.length using Nat.strong_induction_on generalizing B with
  | _ k ih =>
    cases B with
    | nil => cases h
    | cons b rest =>
      cases ho : decodeOne cfg (b :: rest) with
      | error e' => rw [decodeSeq_error ho] at h; cases h; exact ⟨_, List.suffix_rfl, ho⟩
      | ok p =>
        obtain ⟨v, after⟩ := p
        obtain ⟨sym, hne, heq⟩ := decodeOne_ok ho
        rw [decodeSeq_ok ho] at h
        cases ha : decodeSeq cfg after with
        | ok S => rw [ha] at h; cases h
        | error e' =>
          rw [ha] at h; cases h
          have hlt : after.length < k := by
            have := List.length_pos_of_ne_nil hne
            rw [← hk, heq, List.length_append]; omega
          obtain ⟨B', hB', herr⟩ := ih _ hlt ha rfl
          exact ⟨B', heq ▸ hB'.trans (List.suffix_append sym after), herr⟩

/-- Settles O49: a value is that of a symbol, an error that of `decode_one` at a suffix, caused by a byte of it. -/
theorem decodeAnswersAreLegal : Obligations.DecodeAnswersAreLegal := by
  refine fun B => ⟨fun S h => decodeSeq_le_maxCp h, fun e h => ?_⟩
  obtain ⟨B', hB', herr⟩ := decodeSeq_error_suffix h
  exact (decodeOne_error_hasCause herr).mono hB'.subset

end Sys2Proof.Machine
end

section
/-! PROOFS of the statements of 42_transactions.md: the round trip of the two functions, their errors and sizes, and
the calls that the two units answer as the functions do. -/

namespace Sys2Proof.Machine

/-! ### Encoding, for either value of `CEIL[3]` -/

/-- The tables of this hardware, or those with `CEIL[3]` as printed (93_implementation_defined.md U2). -/
def EitherTables (cfg : Config) : Prop := cfg = tables ∨ cfg = printedTables

theorem EitherTables.maxCp_eq {cfg : Config} (hcfg : EitherTables cfg) : cfg.maxCp = 0x7FFFFFFF := by
  obtain rfl | rfl := hcfg <;> rfl

/-- No ceiling is above that of this hardware. -/
theorem EitherTables.ceil_le {cfg : Config} (hcfg : EitherTables cfg) (n : Fin 6) : cfg.ceil[n] ≤ tables.ceil[n] := by
  obtain rfl | rfl := hcfg
  · exact BitVec.le_refl _
  · revert n; decide

/-- The layout of a symbol reads no ceiling. -/
theorem EitherTables.encSym_eq {cfg : Config} (hcfg : EitherTables cfg) (n : Fin 6) (v : CodePoint) :
    encSym cfg n v = encSym tables n v := by
  obtain rfl | rfl := hcfg <;> rfl

/-- Decoding reads no ceiling. -/
theorem EitherTables.decodeSeq_eq {cfg : Config} (hcfg : EitherTables cfg) (B : List Byte) :
    decodeSeq cfg B = decodeSeq tables B := by
  obtain rfl | rfl := hcfg
  · rfl
  · exact decodeSeq_printed B

theorem EitherTables.exists_class {cfg : Config} (hcfg : EitherTables cfg) {v : CodePoint} (h : v ≤ 0x7FFFFFFF) :
    ∃ n, classOf cfg v = some n := by
  refine Option.ne_none_iff_exists'.1 fun hc => ?_
  have habove : cfg.maxCp < v := classOf_eq_none.1 hc 5
  rw [hcfg.maxCp_eq] at habove
  exact BitVec.not_le.2 habove h

theorem EitherTables.classOf_tooLarge {cfg : Config} (hcfg : EitherTables cfg) {v : CodePoint}
    (h : 0x7FFFFFFF < v) : classOf cfg v = none :=
  classOf_eq_none.2 fun n =>
    Nat.lt_of_le_of_lt (Nat.le_trans (hcfg.ceil_le n) (ceil_mono (Fin.le_last n))) h

/-- Two halves of a sequence, the first of which encodes (42_transactions.md R191). -/
theorem encodeSeq_append_ok {cfg : Config} {S : List CodePoint} {B : List Byte} (h : encodeSeq cfg S = .ok B)
    (S' : List CodePoint) : encodeSeq cfg (S ++ S') = (encodeSeq cfg S').map (B ++ ·) := by
  induction S generalizing B with
  | nil => cases h; rw [List.nil_append]; cases encodeSeq cfg S' <;> rfl
  | cons v S ih =>
    cases hv : encodeOne cfg v with
    | error e => rw [encodeSeq_cons_error hv] at h; cases h
    | ok bs =>
      rw [encodeSeq_cons_ok hv] at h
      cases hs : encodeSeq cfg S with
      | error e => rw [hs] at h; cases h
      | ok B' =>
        rw [hs] at h; cases h
        rw [List.cons_append, encodeSeq_cons_ok hv, ih hs]
        cases encodeSeq cfg S' <;> simp [Except.map]

/-- Code points of the range encode. -/
theorem EitherTables.exists_encodeSeq {cfg : Config} (hcfg : EitherTables cfg) {S : List CodePoint}
    (h : ∀ v ∈ S, v ≤ 0x7FFFFFFF) : ∃ B, encodeSeq cfg S = .ok B := by
  induction S with
  | nil => exact ⟨[], rfl⟩
  | cons v S ih =>
    obtain ⟨hv, hS⟩ := List.forall_mem_cons.1 h
    obtain ⟨n, hn⟩ := hcfg.exists_class hv
    obtain ⟨B, hB⟩ := ih hS
    exact ⟨encSym cfg n v ++ B, by rw [encodeSeq_cons_ok (encodeOne_of_class hn), hB]; rfl⟩

/-! ### The round trip -/

/-- A symbol at the front of a sequence is its code point, then what the rest decodes to. -/
theorem decodeSeq_symbolBytes {i : Instr} (h : symbolBytes i ≠ []) (B : List Byte) :
    decodeSeq tables (symbolBytes i ++ B) = (decodeSeq tables B).map (symbolCodePoint i :: ·) := by
  have hone := wellFormedSymbolsAlwaysDecode i B h
  obtain ⟨b, rest, hbytes⟩ := List.exists_cons_of_ne_nil h
  rw [hbytes] at hone ⊢
  exact decodeSeq_ok hone

/-- The layout of any class that holds a code point is read as that code point (40_encoder.md R132). -/
theorem decodeSeq_encSym {n : Fin 6} {v : CodePoint} (h : v ≤ tables.ceil[n]) (B : List Byte) :
    decodeSeq tables (encSym tables n v ++ B) = (decodeSeq tables B).map (v :: ·) := by
  have hbytes := symbolBytes_symbolOf h
  have hdec := decodeSeq_symbolBytes (i := symbolOf n v) (by simp [hbytes, encSym]) B
  rwa [hbytes, symbolCodePoint_symbolOf h] at hdec

theorem EitherTables.decodeSeq_of_encodeSeq {cfg : Config} (hcfg : EitherTables cfg) {S : List CodePoint}
    {B : List Byte} (h : encodeSeq cfg S = .ok B) : decodeSeq tables B = .ok S := by
  induction S generalizing B with
  | nil => cases h; rfl
  | cons v S ih =>
    cases hc : classOf cfg v with
    | none => rw [encodeSeq_cons_error (encodeOne_of_tooLarge hc)] at h; cases h
    | some n =>
      rw [encodeSeq_cons_ok (encodeOne_of_class hc), hcfg.encSym_eq] at h
      cases hs : encodeSeq cfg S with
      | error e => rw [hs] at h; cases h
      | ok B' =>
        rw [hs] at h; cases h
        rw [decodeSeq_encSym (Nat.le_trans (classOf_eq_some hc).1 (hcfg.ceil_le n)), ih hs]
        rfl

/-- Settles O40: code points of the range encode, and what encodes is read back symbol by symbol. -/
theorem roundTripLaw : Obligations.RoundTripLaw := by
  intro cfg hcfg S hS
  obtain ⟨B, hB⟩ := EitherTables.exists_encodeSeq hcfg hS
  exact ⟨B, hB, (EitherTables.decodeSeq_eq hcfg B).trans (EitherTables.decodeSeq_of_encodeSeq hcfg hB)⟩

/-! ### Errors -/

/-- Settles O41: the elements before encode, and the first that is too large gives the error of the rest. -/
theorem firstTooLargeCodePointDecides : Obligations.FirstTooLargeCodePointDecides := by
  intro cfg hcfg before v after hbefore hv
  obtain ⟨B, hB⟩ := EitherTables.exists_encodeSeq hcfg hbefore
  have hone := encodeOne_of_tooLarge (EitherTables.classOf_tooLarge hcfg hv)
  rw [encodeSeq_append_ok hB, encodeSeq_cons_error hone, EitherTables.maxCp_eq hcfg]
  rfl

theorem classOf_ceil {cfg : Config} (hcfg : EitherTables cfg) (n : Fin 6) : classOf cfg cfg.ceil[n] = some n := by
  obtain rfl | rfl := hcfg <;> revert n <;> decide

theorem classOf_ceil_add_one {cfg : Config} (hcfg : EitherTables cfg) {n : Fin 6} (h : n.val < 5) :
    ∃ m : Fin 6, m.val = n.val + 1 ∧ classOf cfg (cfg.ceil[n] + 1) = some m := by
  obtain rfl | rfl := hcfg <;> revert n <;> decide

/-- Settles O42: a ceiling is of its own class, one more is of the next class, and above the last there is none. -/
theorem lengthClassBoundaries : Obligations.LengthClassBoundaries := by
  refine fun cfg hcfg n =>
    ⟨⟨_, encodeOne_of_class (classOf_ceil hcfg n), encSym_length _ _ _⟩, fun hn => ?_, ?_⟩
  · obtain ⟨m, hm, hc⟩ := classOf_ceil_add_one hcfg hn
    exact ⟨_, encodeOne_of_class hc, by rw [encSym_length, hm]⟩
  · refine encodeOne_of_tooLarge (EitherTables.classOf_tooLarge hcfg ?_)
    rw [EitherTables.maxCp_eq hcfg]
    decide

theorem decodeOne_of_lead {b : Byte} {n : Fin 6} (h : leadClass tables b = some n) (rest : List Byte) :
    decodeOne tables (b :: rest) = decodeConts tables n.val (leadPayload tables n b) rest := by
  simp only [decodeOne, h]

/-- A lead byte other than an ASCII byte begins a symbol of more than one byte (30_encoding.md R82). -/
theorem exists_leadClass_succ {b : Byte} (h : 0xC0 ≤ b) (h' : b ≤ 0xFD) :
    ∃ k : Fin 5, leadClass tables b = some k.succ := by
  revert b; decide

theorem isCont_eq_false_of_range {b : Byte} (h : b < 0x80 ∨ 0xBF < b) : isCont tables b = false := by
  revert b; decide

/-- Settles O44: after a lead byte of class 1 or more a continuation byte is wanted; there is none, or it is bad. -/
theorem decodeFailsAsStated : Obligations.DecodeFailsAsStated := by
  refine ⟨fun b h h' => decodeSeq_error ?_, fun l c h h' hc => decodeSeq_error ?_⟩
  · obtain ⟨k, hk⟩ := exists_leadClass_succ h h'
    rw [decodeOne_of_lead hk]
    rfl
  · rw [decodeOne_of_lead (leadClass_of_range1 h h')]
    simp [decodeConts, isCont_eq_false_of_range hc]

/-! ### Sizes -/

/-- Every code point decoded took one to six bytes (41_decoder.md R174). -/
theorem decodeSeq_length_bounds {B : List Byte} {S : List CodePoint} (h : decodeSeq tables B = .ok S) :
    S.length ≤ B.length ∧ B.length ≤ 6 * S.length := by
  refine decodeSeq_induction (P := fun B S => S.length ≤ B.length ∧ B.length ≤ 6 * S.length) (by simp) ?_ h
  intro i B S hne _ ih
  obtain ⟨n, -, hlen, -⟩ := symbolBytes_class i hne
  simp only [List.length_append, List.length_cons, hlen]
  omega

/-- Settles O45: what encodes is read back, so its bounds are those of decoding. -/
theorem sizesAreBounded : Obligations.SizesAreBounded :=
  ⟨fun _ _ h => decodeSeq_length_bounds (EitherTables.decodeSeq_of_encodeSeq (.inl rfl) h),
    fun _ _ h => decodeSeq_length_bounds h⟩

/-- The bytes of the code points' own symbols: no longer than `B`, and `B` itself where they are as long
(30_encoding.md R85). -/
def HasShortestForm (B : List Byte) (S : List CodePoint) : Prop :=
  ∃ B', encodeSeq tables S = .ok B' ∧ B'.length ≤ B.length ∧ (B'.length = B.length → B' = B)

/-- A symbol is as long as its code point's own class asks or longer; it is as long only in that class. -/
theorem HasShortestForm.symbol {i : Instr} (hne : symbolBytes i ≠ []) {B : List Byte} {S : List CodePoint}
    (h : HasShortestForm B S) : HasShortestForm (symbolBytes i ++ B) (symbolCodePoint i :: S) := by
  obtain ⟨B', henc, hle, heq⟩ := h
  obtain ⟨n, hceil, -, hbytes⟩ := symbolBytes_class i hne
  obtain ⟨m, hclass, hmn⟩ := classOf_le hceil
  have hmn' : m.val ≤ n.val := hmn
  refine ⟨encSym tables m (symbolCodePoint i) ++ B', ?_, ?_, fun hlen => ?_⟩
  · rw [encodeSeq_cons_ok (encodeOne_of_class hclass), henc]
    rfl
  · rw [hbytes]
    simp only [List.length_append, encSym_length]
    omega
  · rw [hbytes] at hlen ⊢
    simp only [List.length_append, encSym_length] at hlen
    obtain rfl : m = n := Fin.ext (by omega)
    rw [heq (by omega)]

/-- Settles O46: symbol by symbol. -/
theorem encodeOfDecodeIsShortest : Obligations.EncodeOfDecodeIsShortest := fun _ _ h =>
  decodeSeq_induction (P := HasShortestForm) ⟨[], rfl, Nat.le_refl _, fun _ => rfl⟩
    (fun _ _ _ hne _ ih => ih.symbol hne) h

/-! ### Calls on the units -/

/-- What `DONE` carries for a result (20_memory.md R59). -/
def doneOf {α : Type} : Except ErrorRecord α → DoneResult
  | .ok _ => .ok
  | .error e => .err e

theorem doneOf_map {α β : Type} (f : α → β) (r : Except ErrorRecord α) : doneOf (r.map f) = doneOf r := by
  cases r <;> rfl

/-- The output of a call with result `r`: some data elements, which are the value if there is one, and one `DONE`
(20_memory.md R59, R60). -/
def IsCallOutput {α : Type} (r : Except ErrorRecord (List α)) (out : List (OutElem α)) : Prop :=
  ∃ xs : List α, out = xs.map .data ++ [.done (doneOf r)] ∧ ∀ ys, r = .ok ys → xs = ys

theorem IsCallOutput.of_ok {α : Type} {r : Except ErrorRecord (List α)} {out : List (OutElem α)} {ys : List α}
    (h : IsCallOutput r out) (hr : r = .ok ys) : out = ys.map .data ++ [.done .ok] := by
  obtain ⟨xs, rfl, hxs⟩ := h
  rw [hxs ys hr, hr]
  rfl

theorem IsCallOutput.of_error {α : Type} {r : Except ErrorRecord (List α)} {out : List (OutElem α)}
    {e : ErrorRecord} (h : IsCallOutput r out) (hr : r = .error e) :
    ∃ void : List α, out = void.map .data ++ [.done (.err e)] := by
  obtain ⟨xs, rfl, -⟩ := h
  exact ⟨xs, by rw [hr]; rfl⟩

/-- The output of a call is read as its result, and what follows is read afresh. -/
theorem IsCallOutput.results_append {α : Type} {r : Except ErrorRecord (List α)} {out : List (OutElem α)}
    (h : IsCallOutput r out) (rest : List (OutElem α)) : results (out ++ rest) = r :: results rest := by
  obtain ⟨xs, rfl, hxs⟩ := h
  rw [List.append_assoc, results_data_append]
  cases r with
  | error e => rfl
  | ok ys => rw [hxs ys rfl]; rfl

/-- The encoder over the data of a call: what it holds then is the result `END` delivers. -/
theorem encTransAll_data (S : List CodePoint) :
    ∃ (u : EncUnit) (xs : List Byte), encTransAll EncUnit.reset (S.map .data) = (u, xs.map .data) ∧
      encResult u = doneOf (encodeSeq tables S) ∧ ∀ B, encodeSeq tables S = .ok B → xs = B := by
  cases h : encodeSeq tables S with
  | ok B => exact ⟨EncUnit.reset, B, encTransAll_ok h, rfl, fun _ hB => Except.ok.inj hB⟩
  | error e =>
    obtain ⟨void, hvoid⟩ := encTransAll_error h
    exact ⟨_, void, hvoid, rfl, nofun⟩

/-- The decoder over the data of a call: what it holds then is the result `END` delivers. -/
theorem decTransAll_data (B : List Byte) :
    ∃ (u : DecUnit) (xs : List CodePoint), decTransAll DecUnit.reset (B.map .data) = (u, xs.map .data) ∧
      decResult u = doneOf (decodeSeq tables B) ∧ ∀ S, decodeSeq tables B = .ok S → xs = S := by
  induction hk : B.length using Nat.strong_induction_on generalizing B with
  | _ k ih =>
    cases B with
    | nil => exact ⟨DecUnit.reset, [], rfl, rfl, fun _ hS => Except.ok.inj hS⟩
    | cons b rest =>
      obtain ⟨hwhole, hcut, hbad⟩ := decTransAll_front b rest
      cases ho : decodeOne tables (b :: rest) with
      | error e =>
        rw [decodeSeq_error ho]
        by_cases he : e = .unexpectedEnd
        · subst he
          obtain ⟨r, acc, hrun⟩ := hcut ho
          exact ⟨_, [], hrun, rfl, nofun⟩
        · exact ⟨_, [], hbad e ho he, rfl, nofun⟩
      | ok p =>
        obtain ⟨v, after⟩ := p
        obtain ⟨sym, hne, heq⟩ := decodeOne_ok ho
        have hlt : after.length < k := by
          have := List.length_pos_of_ne_nil hne
          rw [← hk, heq, List.length_append]; omega
        obtain ⟨u, xs, hrun, hdone, hxs⟩ := ih _ hlt after rfl
        refine ⟨u, v :: xs, by rw [hwhole v after ho, hrun]; rfl, ?_, fun S hS => ?_⟩
        · rw [decodeSeq_ok ho, doneOf_map, hdone]
        · rw [decodeSeq_ok ho] at hS
          cases ha : decodeSeq tables after with
          | error e => rw [ha] at hS; cases hS
          | ok S' => rw [ha] at hS; cases hS; rw [hxs S' ha]

theorem encTransAll_callElems (S : List CodePoint) :
    ∃ out, encTransAll EncUnit.reset (callElems S) = (EncUnit.reset, out) ∧
      IsCallOutput (encodeSeq tables S) out := by
  obtain ⟨u, xs, hrun, hdone, hxs⟩ := encTransAll_data S
  exact ⟨_, by rw [callElems, encTransAll_append, hrun]; rfl, xs, by rw [← hdone]; rfl, hxs⟩

theorem decTransAll_callElems (B : List Byte) :
    ∃ out, decTransAll DecUnit.reset (callElems B) = (DecUnit.reset, out) ∧
      IsCallOutput (decodeSeq tables B) out := by
  obtain ⟨u, xs, hrun, hdone, hxs⟩ := decTransAll_data B
  exact ⟨_, by rw [callElems, decTransAll_append, hrun]; rfl, xs, by rw [← hdone]; rfl, hxs⟩

theorem callElems_length {α : Type} (xs : List α) : (callElems xs).length = xs.length + 1 := by
  simp [callElems]

/-- Settles O51: a unit run alone over a call makes the transitions of its elements. -/
theorem theTwoLevelsAgree : Obligations.TheTwoLevelsAgree := by
  refine ⟨fun S rest s hreset hin => ?_, fun B rest s hreset hin => ?_⟩
  · obtain ⟨out, hrun, hout⟩ := encTransAll_callElems S
    refine ⟨out, ?_, fun _ => hout.of_ok, fun _ => hout.of_error⟩
    rw [← callElems_length, runUnit_enc _ rest s hin, hreset, hrun, ← hreset]
  · obtain ⟨out, hrun, hout⟩ := decTransAll_callElems B
    refine ⟨out, ?_, fun _ => hout.of_ok, fun _ => hout.of_error⟩
    rw [← callElems_length, runUnit_dec _ rest s hin, hreset, hrun, ← hreset]

/-- Calls one after another: each begins in the reset state the one before left. -/
theorem encTransAll_calls (Ss : List (List CodePoint)) :
    ∃ out, encTransAll EncUnit.reset (Ss.flatMap callElems) = (EncUnit.reset, out) ∧
      results out = Ss.map (encodeSeq tables) := by
  induction Ss with
  | nil => exact ⟨[], rfl, rfl⟩
  | cons S Ss ih =>
    obtain ⟨out, hrun, hout⟩ := encTransAll_callElems S
    obtain ⟨outs, hruns, houts⟩ := ih
    exact ⟨out ++ outs, by rw [List.flatMap_cons, encTransAll_append, hrun, hruns],
      by rw [hout.results_append, houts, List.map_cons]⟩

theorem decTransAll_calls (Bs : List (List Byte)) :
    ∃ out, decTransAll DecUnit.reset (Bs.flatMap callElems) = (DecUnit.reset, out) ∧
      results out = Bs.map (decodeSeq tables) := by
  induction Bs with
  | nil => exact ⟨[], rfl, rfl⟩
  | cons B Bs ih =>
    obtain ⟨out, hrun, hout⟩ := decTransAll_callElems B
    obtain ⟨outs, hruns, houts⟩ := ih
    exact ⟨out ++ outs, by rw [List.flatMap_cons, decTransAll_append, hrun, hruns],
      by rw [hout.results_append, houts, List.map_cons]⟩

/-- Settles O52: a long enough run drains both inputs, and each unit then made the transitions of its own calls. -/
theorem callsGiveTheirResultsUnderAnyInterleaving : Obligations.CallsGiveTheirResultsUnderAnyInterleaving := by
  intro Ss Bs c
  obtain ⟨encOut, henc, hencOut⟩ := encTransAll_calls Ss
  obtain ⟨decOut, hdec, hdecOut⟩ := decTransAll_calls Bs
  obtain ⟨c', hrun⟩ := run_drained _ { State.reset with
    encIn := Ss.flatMap callElems, decIn := Bs.flatMap callElems, sched := c } (Nat.le_refl _)
  refine ⟨_, _, hrun, ?_⟩
  simp [drained, State.reset, henc, hdec, hencOut, hdecOut]

end Sys2Proof.Machine
end

section
/-! PROOFS of the statements of 60_exceptions.md: no step stops, how a unit enters and leaves `FAILED`, and that the
error at a bad byte is decided by the bytes up to it. -/

namespace Sys2Proof.Machine

/-- Settles O29: each of the three things a step can be answers a next state. -/
theorem stepNeverStops : Obligations.StepNeverStops := by
  intro s
  obtain ⟨-, -, hstep⟩ | ⟨_, _, _, -, hstep⟩ | ⟨_, _, _, -, hstep⟩ := step_trans_cases s
  all_goals exact ⟨_, hstep⟩

/-! ### Entering `FAILED` -/

theorem encTrans_run_of_class {u : EncUnit} {v : CodePoint} {n : Fin 6} (hst : u.st = .run)
    (hc : classOf tables v = some n) : encTrans u (.data v) = (u, (encSym tables n v).map .data) := by
  simp only [encTrans, hst, hc]

theorem encTrans_run_tooLarge {u : EncUnit} {v : CodePoint} (hst : u.st = .run) (hc : classOf tables v = none) :
    encTrans u (.data v) = ({ st := .failed, err := .codePointTooLarge v tables.maxCp }, []) := by
  simp only [encTrans, hst, hc]

/-- The one transition of the encoder into `FAILED` (40_encoder.md R128). -/
theorem encTrans_enters_failed {u : EncUnit} {e : InElem CodePoint} (hu : u.st ≠ .failed)
    (h : (encTrans u e).1.st = .failed) :
    ∃ v, e = .data v ∧ tables.maxCp < v ∧
      encTrans u e = ({ st := .failed, err := .codePointTooLarge v tables.maxCp }, []) := by
  cases e with
  | endMark => cases h
  | data v =>
    cases hst : u.st with
    | failed => exact absurd hst hu
    | run =>
      cases hc : classOf tables v with
      | some n => rw [encTrans_run_of_class hst hc] at h; exact absurd h hu
      | none => exact ⟨v, rfl, classOf_eq_none.1 hc 5, encTrans_run_tooLarge hst hc⟩

/-- The decoder's fields once it has raised an error (60_exceptions.md R232). -/
def failedWith (e : ErrorRecord) : DecUnit := { st := .failed, rem := 0, acc := 0, err := e }

theorem byteTrans_lead_st_ne_failed {u : DecUnit} {b : Byte} {n : Fin 6} (hst : u.st = .awaitLead)
    (hc : leadClass tables b = some n) : (byteTrans u b).1.st ≠ .failed := by
  by_cases hn : n = 0 <;> simp [byteTrans, hst, hc, hn]

theorem byteTrans_badLead {u : DecUnit} {b : Byte} (hst : u.st = .awaitLead) (hc : leadClass tables b = none) :
    byteTrans u b = (failedWith (.invalidLeadByte b), []) := by
  simp only [byteTrans, hst, hc, failedWith]

theorem byteTrans_cont_st_ne_failed {u : DecUnit} {b : Byte} (hst : u.st = .awaitCont)
    (hc : isCont tables b = true) : (byteTrans u b).1.st ≠ .failed := by
  by_cases hr : 1 < u.rem.val <;> simp [byteTrans, hst, hc, hr]

theorem byteTrans_badCont {u : DecUnit} {b : Byte} (hst : u.st = .awaitCont) (hc : isCont tables b = false) :
    byteTrans u b = (failedWith (.invalidContinuationByte b), []) := by
  simp [byteTrans, hst, hc, failedWith]

/-- The error `e` is the one a byte that the status does not allow raises (41_decoder.md R157, R160). -/
def IsErrorOfByte (st : DecSt) (b : Byte) (e : ErrorRecord) : Prop :=
  (st = .awaitLead ∧ leadClass tables b = none ∧ e = .invalidLeadByte b) ∨
    (st = .awaitCont ∧ isCont tables b = false ∧ e = .invalidContinuationByte b)

/-- The two transitions of the decoder into `FAILED`. -/
theorem decTrans_enters_failed {u : DecUnit} {e : InElem Byte} (hu : u.st ≠ .failed)
    (h : (decTrans u e).1.st = .failed) :
    ∃ b err, e = .data b ∧ IsErrorOfByte u.st b err ∧ decTrans u e = (failedWith err, []) := by
  cases e with
  | endMark => cases h
  | data b =>
    cases hst : u.st with
    | failed => exact absurd hst hu
    | awaitLead =>
      cases hc : leadClass tables b with
      | some n => exact absurd h (byteTrans_lead_st_ne_failed hst hc)
      | none => exact ⟨b, _, rfl, .inl ⟨rfl, hc, rfl⟩, byteTrans_badLead hst hc⟩
    | awaitCont =>
      cases hc : isCont tables b with
      | true => exact absurd h (byteTrans_cont_st_ne_failed hst hc)
      | false => exact ⟨b, _, rfl, .inr ⟨rfl, hc, rfl⟩, byteTrans_badCont hst hc⟩

/-- A byte with no lead pattern is in one of two ranges (41_decoder.md R157). -/
theorem range_of_leadClass_none {b : Byte} (h : leadClass tables b = none) :
    (0x80 ≤ b ∧ b ≤ 0xBF) ∨ 0xFE ≤ b := by
  revert b; decide

/-- A byte without the continuation pattern is in one of two ranges (41_decoder.md R160). -/
theorem range_of_isCont_false {b : Byte} (h : isCont tables b = false) : b < 0x80 ∨ 0xBF < b := by
  revert b; decide

/-- Settles O37: the transitions into `FAILED` are those of an offending element, with the ranges of the bytes. -/
theorem failedIsEnteredOnlyByAnError : Obligations.FailedIsEnteredOnlyByAnError := by
  refine ⟨fun s t h hs ht => ?_, fun s t h hs ht => ?_⟩
  · obtain ⟨-, rfl⟩ | ⟨e, rest, hin, rfl⟩ := stepUnit_enc_cases h
    · exact absurd ht hs
    · obtain ⟨v, rfl, hv, htrans⟩ := encTrans_enters_failed hs ht
      rw [htrans]
      exact ⟨v, hin, hv, rfl, List.append_nil _⟩
  · obtain ⟨-, rfl⟩ | ⟨e, rest, hin, rfl⟩ := stepUnit_dec_cases h
    · exact absurd ht hs
    · obtain ⟨b, err, rfl, hcause, htrans⟩ := decTrans_enters_failed hs ht
      rw [htrans]
      refine ⟨b, hin, rfl, rfl, List.append_nil _, ?_⟩
      obtain ⟨hst, hb, rfl⟩ | ⟨hst, hb, rfl⟩ := hcause
      · exact .inl ⟨hst, range_of_leadClass_none hb, rfl⟩
      · exact .inr ⟨hst, range_of_isCont_false hb, rfl⟩

/-! ### Leaving `FAILED` -/

/-- A failed encoder discards data (40_encoder.md R130). -/
theorem encTrans_failed_data {u : EncUnit} (h : u.st = .failed) (v : CodePoint) :
    encTrans u (.data v) = (u, []) := by
  simp only [encTrans, h]

/-- A failed decoder discards data (41_decoder.md R163). -/
theorem decTrans_failed_data {u : DecUnit} (h : u.st = .failed) (b : Byte) : decTrans u (.data b) = (u, []) := by
  simp only [decTrans, byteTrans, h]

/-- `END` delivers the error a failed encoder holds (40_encoder.md R129). -/
theorem encTrans_failed_endMark {u : EncUnit} (h : u.st = .failed) :
    encTrans u .endMark = (EncUnit.reset, [.done (.err u.err)]) := by
  rw [encTrans, encResult_of_failed h]

/-- `END` delivers the error a failed decoder holds (41_decoder.md R164). -/
theorem decTrans_failed_endMark {u : DecUnit} (h : u.st = .failed) :
    decTrans u .endMark = (DecUnit.reset, [.done (.err u.err)]) := by
  rw [decTrans, decResult_of_failed h]

/-- Settles O38: by the element taken, from a failed unit. -/
theorem failedIsLeftOnlyByEnd : Obligations.FailedIsLeftOnlyByEnd := by
  refine ⟨fun s t e rest hst hin h => ?_, fun s t e rest hst hin h => ?_⟩
  · rw [stepUnit_enc_cons hin] at h
    cases h
    cases e with
    | endMark => rw [encTrans_failed_endMark hst]; exact ⟨rfl, rfl⟩
    | data v => rw [encTrans_failed_data hst]; exact ⟨rfl, List.append_nil _⟩
  · rw [stepUnit_dec_cons hin] at h
    cases h
    cases e with
    | endMark => rw [decTrans_failed_endMark hst]; exact ⟨rfl, rfl⟩
    | data b => rw [decTrans_failed_data hst]; exact ⟨rfl, List.append_nil _⟩

/-! ### Bytes after a symbol or after a bad byte -/

/-- Continuation bytes that were not cut short are read alike with more bytes after them. -/
theorem decodeConts_append {cfg : Config} {k : Nat} {acc : CodePoint} {B : List Byte}
    (h : decodeConts cfg k acc B ≠ .error .unexpectedEnd) (C : List Byte) :
    decodeConts cfg k acc (B ++ C) = (decodeConts cfg k acc B).map (Prod.map id (· ++ C)) := by
  induction k generalizing acc B with
  | zero => rfl
  | succ k ih =>
    cases B with
    | nil => exact absurd rfl h
    | cons c rest =>
      cases hc : isCont cfg c with
      | false => simp [decodeConts, hc, Except.map]
      | true =>
        simp only [List.cons_append, decodeConts, hc, if_true] at h ⊢
        exact ih h

/-- A symbol that was not cut short is read alike with more bytes after it (42_transactions.md R194). -/
theorem decodeOne_append {cfg : Config} {B : List Byte} (h : decodeOne cfg B ≠ .error .unexpectedEnd)
    (C : List Byte) : decodeOne cfg (B ++ C) = (decodeOne cfg B).map (Prod.map id (· ++ C)) := by
  cases B with
  | nil => exact absurd rfl h
  | cons b rest =>
    cases hc : leadClass cfg b with
    | none => simp [decodeOne, hc, Except.map]
    | some n =>
      simp only [List.cons_append, decodeOne, hc] at h ⊢
      exact decodeConts_append h C

theorem decodeOne_append_ok {cfg : Config} {B after : List Byte} {v : CodePoint}
    (h : decodeOne cfg B = .ok (v, after)) (C : List Byte) : decodeOne cfg (B ++ C) = .ok (v, after ++ C) := by
  rw [decodeOne_append (by rw [h]; exact nofun), h]
  rfl

theorem decodeOne_append_error {cfg : Config} {B : List Byte} {e : ErrorRecord} (h : decodeOne cfg B = .error e)
    (he : e ≠ .unexpectedEnd) (C : List Byte) : decodeOne cfg (B ++ C) = .error e := by
  rw [decodeOne_append (by rw [h]; exact fun heq => he (Except.error.inj heq)), h]
  rfl

/-- `decode_one` consumes a byte or more. -/
theorem length_lt_of_decodeOne {cfg : Config} {B after : List Byte} {v : CodePoint}
    (h : decodeOne cfg B = .ok (v, after)) : after.length < B.length := by
  obtain ⟨sym, hne, rfl⟩ := decodeOne_ok h
  have := List.length_pos_of_ne_nil hne
  rw [List.length_append]
  omega

/-- An error at a byte stays with more bytes after it: the symbols before the byte are read alike, and so is the
byte (60_exceptions.md R230). -/
theorem decodeSeq_append_error {cfg : Config} {B : List Byte} {e : ErrorRecord} (h : decodeSeq cfg B = .error e)
    (he : e ≠ .unexpectedEnd) (C : List Byte) : decodeSeq cfg (B ++ C) = .error e := by
  induction hk : B.length using Nat.strong_induction_on generalizing B with
  | _ k ih =>
    cases B with
    | nil => cases h
    | cons b rest =>
      cases ho : decodeOne cfg (b :: rest) with
      | error e' =>
        rw [decodeSeq_error ho] at h
        cases h
        exact decodeSeq_error (decodeOne_append_error ho he C)
      | ok p =>
        obtain ⟨v, after⟩ := p
        rw [decodeSeq_ok ho] at h
        cases ha : decodeSeq cfg after with
        | ok S => rw [ha] at h; cases h
        | error e' =>
          rw [ha] at h
          cases h
          have hafter := ih _ (hk ▸ length_lt_of_decodeOne ho) ha rfl
          exact (decodeSeq_ok (decodeOne_append_ok ho C)).trans (by rw [hafter]; rfl)

/-- Settles O48: an error other than a truncation is one at a byte. -/
theorem laterBytesDoNotChangeAnError : Obligations.LaterBytesDoNotChangeAnError :=
  fun _ C _ h he => decodeSeq_append_error h he C

end Sys2Proof.Machine
end

section
/-! PROOFS of the statements of 70_reset_and_hazards.md: what reset leaves, and that the pace at which the host appends
and removes elements makes no difference. -/

namespace Sys2Proof.Machine

/-- Settles O1: the reset event answers the state the core starts in, which has these values by definition. -/
theorem resetLeavesTheSpecsValues : Obligations.ResetLeavesTheSpecsValues := fun _ =>
  ⟨State.reset, rfl, rfl, EncUnit.reset_st, EncUnit.reset_err, DecUnit.reset_st, DecUnit.reset_rem, DecUnit.reset_acc,
    DecUnit.reset_err, rfl, rfl, rfl, rfl⟩

/-! ### Removing the front element of an output -/

theorem hostTakeEnc_cons {s : State} {x : OutElem Byte} {rest : List (OutElem Byte)} (h : s.encOut = x :: rest) :
    hostTakeEnc s = some (x, { s with encOut := rest }) := by
  rw [hostTakeEnc, h]

theorem hostTakeDec_cons {s : State} {x : OutElem CodePoint} {rest : List (OutElem CodePoint)}
    (h : s.decOut = x :: rest) : hostTakeDec s = some (x, { s with decOut := rest }) := by
  rw [hostTakeDec, h]

/-- The host removes from an output that is not empty (20_memory.md R58). -/
theorem hostTakeEnc_cases {s s' : State} {x : OutElem Byte} (h : hostTakeEnc s = some (x, s')) :
    ∃ rest, s.encOut = x :: rest ∧ s' = { s with encOut := rest } := by
  cases hout : s.encOut with
  | nil => rw [hostTakeEnc, hout] at h; cases h
  | cons y rest => rw [hostTakeEnc_cons hout] at h; cases h; exact ⟨rest, rfl, rfl⟩

/-- The host removes from an output that is not empty (20_memory.md R58). -/
theorem hostTakeDec_cases {s s' : State} {x : OutElem CodePoint} (h : hostTakeDec s = some (x, s')) :
    ∃ rest, s.decOut = x :: rest ∧ s' = { s with decOut := rest } := by
  cases hout : s.decOut with
  | nil => rw [hostTakeDec, hout] at h; cases h
  | cons y rest => rw [hostTakeDec_cons hout] at h; cases h; exact ⟨rest, rfl, rfl⟩

/-! ### The host's actions commute with a step

A step takes the head of its input and appends at the end of its output, whatever stands behind the one or before the
other. -/

theorem stepUnit_enc_hostPutEnc {s t : State} {e : InElem CodePoint} (hin : s.encIn ≠ [])
    (h : stepUnit .enc s = .next t) : stepUnit .enc (hostPutEnc e s) = .next (hostPutEnc e t) := by
  obtain ⟨hnil, -⟩ | ⟨x, rest, hcons, rfl⟩ := stepUnit_enc_cases h
  · exact absurd hnil hin
  · have hput : (hostPutEnc e s).encIn = x :: (rest ++ [e]) := by simp [hcons]
    exact stepUnit_enc_cons hput

theorem stepUnit_dec_hostPutDec {s t : State} {e : InElem Byte} (hin : s.decIn ≠ [])
    (h : stepUnit .dec s = .next t) : stepUnit .dec (hostPutDec e s) = .next (hostPutDec e t) := by
  obtain ⟨hnil, -⟩ | ⟨x, rest, hcons, rfl⟩ := stepUnit_dec_cases h
  · exact absurd hnil hin
  · have hput : (hostPutDec e s).decIn = x :: (rest ++ [e]) := by simp [hcons]
    exact stepUnit_dec_cons hput

theorem stepUnit_enc_hostTakeEnc {s s' t : State} {x : OutElem Byte} (htake : hostTakeEnc s = some (x, s'))
    (h : stepUnit .enc s = .next t) : ∃ t', hostTakeEnc t = some (x, t') ∧ stepUnit .enc s' = .next t' := by
  obtain ⟨out, hout, rfl⟩ := hostTakeEnc_cases htake
  obtain ⟨hnil, rfl⟩ | ⟨e, rest, hcons, rfl⟩ := stepUnit_enc_cases h
  · exact ⟨_, htake, stepUnit_enc_idle hnil⟩
  · have hfront : s.encOut ++ (encTrans s.enc e).2 = x :: (out ++ (encTrans s.enc e).2) := by simp [hout]
    exact ⟨_, hostTakeEnc_cons hfront, stepUnit_enc_cons hcons⟩

theorem stepUnit_dec_hostTakeDec {s s' t : State} {x : OutElem CodePoint} (htake : hostTakeDec s = some (x, s'))
    (h : stepUnit .dec s = .next t) : ∃ t', hostTakeDec t = some (x, t') ∧ stepUnit .dec s' = .next t' := by
  obtain ⟨out, hout, rfl⟩ := hostTakeDec_cases htake
  obtain ⟨hnil, rfl⟩ | ⟨e, rest, hcons, rfl⟩ := stepUnit_dec_cases h
  · exact ⟨_, htake, stepUnit_dec_idle hnil⟩
  · have hfront : s.decOut ++ (decTrans s.dec e).2 = x :: (out ++ (decTrans s.dec e).2) := by simp [hout]
    exact ⟨_, hostTakeDec_cons hfront, stepUnit_dec_cons hcons⟩

/-- Settles O36: appending and removing commute with a step of the unit. -/
theorem paceOfTheHostDoesNotMatter : Obligations.PaceOfTheHostDoesNotMatter :=
  ⟨fun _ _ _ => stepUnit_enc_hostPutEnc, fun _ _ _ => stepUnit_dec_hostPutDec,
    fun _ _ _ _ => stepUnit_enc_hostTakeEnc, fun _ _ _ _ => stepUnit_dec_hostTakeDec⟩

end Sys2Proof.Machine
end
